-- ==== Sys2Proof/Word.lean ====
section
/-! DEFINITION. The two widths of the ZCU: bytes and 64-bit words (00_scope.md R6, R7, R8). -/

namespace Sys2Proof

/-- A byte: bit 0 is the least significant bit (R8). -/
abbrev Byte := BitVec 8

/-- The value of every register but the IBUF bytes (R7), and every VLE value (R6). -/
abbrev Word := BitVec 64

end Sys2Proof
end

