-- ==== Sys2Proof/Syntax.lean ====
section
/-! DEFINITION. The commands (30_encoding.md R70 to R76): one constructor for each row of spec/opcode_table.json. -/

namespace Sys2Proof

/-- R_SET: the legal reserved-bit counts r of the VLE (R6, R72). -/
inductive Reserved where
  | r0 | r1 | r4 | r5 | r6
  deriving DecidableEq, Repr

/-- The number r itself. -/
def Reserved.count : Reserved → Nat
  | .r0 => 0
  | .r1 => 1
  | .r4 => 4
  | .r5 => 5
  | .r6 => 6

/-- The four numeric Modes (R73): unsigned or signed, integer or decimal. -/
inductive Mode where
  | ui | si | ud | sd
  deriving DecidableEq, Repr

/-- The 20 legal commands. R and MODE belong to the row, so no constructor carries an operand; the operands are
registers and IBUF. -/
inductive Instr where
  /-- `VLE.ENC r=0` (R104). -/
  | vleEncR0
  /-- `VLE.ENC r=1` (R104). -/
  | vleEncR1
  /-- `VLE.ENC r=4` (R104). -/
  | vleEncR4
  /-- `VLE.ENC r=5` (R104). -/
  | vleEncR5
  /-- `VLE.ENC r=6` (R104). -/
  | vleEncR6
  /-- `VLE.DEC r=0` (R110). -/
  | vleDecR0
  /-- `VLE.DEC r=1` (R110). -/
  | vleDecR1
  /-- `VLE.DEC r=4` (R110). -/
  | vleDecR4
  /-- `VLE.DEC r=5` (R110). -/
  | vleDecR5
  /-- `VLE.DEC r=6` (R110). -/
  | vleDecR6
  /-- `SPC.ENC` (R132). -/
  | spcEnc
  /-- `SPC.DEC` (R136). -/
  | spcDec
  /-- `NUM.ENC UI` (R154). -/
  | numEncUi
  /-- `NUM.ENC SI` (R154). -/
  | numEncSi
  /-- `NUM.ENC UD` (R154). -/
  | numEncUd
  /-- `NUM.ENC SD` (R154). -/
  | numEncSd
  /-- `NUM.DEC UI` (R165). -/
  | numDecUi
  /-- `NUM.DEC SI` (R165). -/
  | numDecSi
  /-- `NUM.DEC UD` (R165). -/
  | numDecUd
  /-- `NUM.DEC SD` (R165). -/
  | numDecSd
  deriving DecidableEq, Repr

/-- `VLE.ENC r=<n>` of R76. -/
def Instr.vleEnc : Reserved → Instr
  | .r0 => .vleEncR0
  | .r1 => .vleEncR1
  | .r4 => .vleEncR4
  | .r5 => .vleEncR5
  | .r6 => .vleEncR6

/-- `VLE.DEC r=<n>` of R76. -/
def Instr.vleDec : Reserved → Instr
  | .r0 => .vleDecR0
  | .r1 => .vleDecR1
  | .r4 => .vleDecR4
  | .r5 => .vleDecR5
  | .r6 => .vleDecR6

/-- `NUM.ENC <UI|SI|UD|SD>` of R76. -/
def Instr.numEnc : Mode → Instr
  | .ui => .numEncUi
  | .si => .numEncSi
  | .ud => .numEncUd
  | .sd => .numEncSd

/-- `NUM.DEC <UI|SI|UD|SD>` of R76. -/
def Instr.numDec : Mode → Instr
  | .ui => .numDecUi
  | .si => .numDecSi
  | .ud => .numDecUd
  | .sd => .numDecSd

end Sys2Proof
end

