-- ==== Sys2Proof/WellFormed.lean ====
section
/-! DEFINITION. Which command words are legal (R70 to R74), said over the word's fields and apart from the decoder. -/

namespace Sys2Proof

/-- The fields of a command word (R70). -/
structure Fields where
  /-- Bits [3:0]. -/
  opc : BitVec 4
  /-- Bits [6:4]. -/
  r : BitVec 3
  /-- Bit [7], reserved. -/
  bit7 : Bool
  /-- Bits [9:8]. -/
  mode : BitVec 2
  /-- Bits [63:10], reserved. -/
  high : BitVec 54
  deriving DecidableEq, Repr

/-- The fields of a 64-bit word written to CMD (R70). -/
def Fields.ofWord (w : Word) : Fields where
  opc := w.extractLsb' 0 4
  r := w.extractLsb' 4 3
  bit7 := w.getLsbD 7
  mode := w.extractLsb' 8 2
  high := w.extractLsb' 10 54

/-- R74, first line: the reserved bits are 0. -/
def Fields.reservedZero (f : Fields) : Bool := f.high == 0 && !f.bit7

/-- R74, second line: the opcode is one of 1 to 6. -/
def Fields.opcodeLegal (f : Fields) : Bool := 1 ≤ f.opc.toNat && f.opc.toNat ≤ 6

/-- R72, R74: r is in the set for a VLE command, and 0 for the others. -/
def Fields.rLegal (f : Fields) : Bool :=
  if f.opc == 1 || f.opc == 2 then f.r.toNat ∈ [0, 1, 4, 5, 6] else f.r == 0

/-- R73, R74: MODE is 0 for a VLE or space command, anything for a numeric one. -/
def Fields.modeLegal (f : Fields) : Bool :=
  f.mode == 0 || f.opc == 5 || f.opc == 6

/-- The legality check of R74. -/
def Fields.wellFormed (f : Fields) : Bool :=
  f.reservedZero && f.opcodeLegal && f.rLegal && f.modeLegal

/-- `legal(w)` of R74. -/
def legal (w : Word) : Bool := (Fields.ofWord w).wellFormed

/-- A command's R field (R72). -/
def Reserved.field (r : Reserved) : BitVec 3 := BitVec.ofNat 3 r.count

/-- A command's MODE field (R73): bit 1 "contains decimal", bit 0 "contains negative". -/
def Mode.field : Mode → BitVec 2
  | .ui => 0b00
  | .si => 0b01
  | .ud => 0b10
  | .sd => 0b11

/-- The fields of each command, from R71 to R73. -/
def Instr.fields : Instr → Fields
  | .vleEncR0 => ⟨1, Reserved.r0.field, false, 0, 0⟩
  | .vleEncR1 => ⟨1, Reserved.r1.field, false, 0, 0⟩
  | .vleEncR4 => ⟨1, Reserved.r4.field, false, 0, 0⟩
  | .vleEncR5 => ⟨1, Reserved.r5.field, false, 0, 0⟩
  | .vleEncR6 => ⟨1, Reserved.r6.field, false, 0, 0⟩
  | .vleDecR0 => ⟨2, Reserved.r0.field, false, 0, 0⟩
  | .vleDecR1 => ⟨2, Reserved.r1.field, false, 0, 0⟩
  | .vleDecR4 => ⟨2, Reserved.r4.field, false, 0, 0⟩
  | .vleDecR5 => ⟨2, Reserved.r5.field, false, 0, 0⟩
  | .vleDecR6 => ⟨2, Reserved.r6.field, false, 0, 0⟩
  | .spcEnc => ⟨3, 0, false, 0, 0⟩
  | .spcDec => ⟨4, 0, false, 0, 0⟩
  | .numEncUi => ⟨5, 0, false, Mode.ui.field, 0⟩
  | .numEncSi => ⟨5, 0, false, Mode.si.field, 0⟩
  | .numEncUd => ⟨5, 0, false, Mode.ud.field, 0⟩
  | .numEncSd => ⟨5, 0, false, Mode.sd.field, 0⟩
  | .numDecUi => ⟨6, 0, false, Mode.ui.field, 0⟩
  | .numDecSi => ⟨6, 0, false, Mode.si.field, 0⟩
  | .numDecUd => ⟨6, 0, false, Mode.ud.field, 0⟩
  | .numDecSd => ⟨6, 0, false, Mode.sd.field, 0⟩

/-- An instruction is well formed when its fields pass R74's check. Every constructor is: none carries an operand. -/
def Instr.wellFormed (i : Instr) : Bool := i.fields.wellFormed

end Sys2Proof
end

