-- ==== Sys2Proof/Decode.lean ====
section
/-! DEFINITION. Decoding a command word (R70 to R75) and encoding a command (R76). The word is written to CMD whole
(R51, R54), so the decoder takes the 64-bit word and no byte order is involved. -/

namespace Sys2Proof

/-- Why a word is no command. R74 raises ILLEGAL for each and records no reason (R203); the names are the model's. -/
inductive Illegal where
  /-- Bit 7 or one of bits [63:10] is 1 (R70). -/
  | reservedBits
  /-- OPC is 0 or 7 to 15 (R71, R75). -/
  | opcode
  /-- R is not legal for the opcode (R72). -/
  | rField
  /-- MODE is not 0 where it must be (R73). -/
  | modeField
  deriving DecidableEq, Repr

/-- Field OPC (R70). -/
def opcOf (w : Word) : BitVec 4 := w.extractLsb' 0 4

/-- Field R (R70). -/
def rOf (w : Word) : BitVec 3 := w.extractLsb' 4 3

/-- Field MODE (R70). -/
def modeOf (w : Word) : BitVec 2 := w.extractLsb' 8 2

/-- Whether every reserved bit, [7] and [63:10], is 0 (R70). -/
def reservedClear (w : Word) : Bool := !w.getLsbD 7 && w >>> 10 == 0

/-- The VLE reserved-bit count an R field holds (R72). -/
def decodeR (r : BitVec 3) : Option Reserved :=
  match r.toNat with
  | 0 => some .r0
  | 1 => some .r1
  | 4 => some .r4
  | 5 => some .r5
  | 6 => some .r6
  | _ => none

/-- The Mode a MODE field selects (R73). -/
def decodeMode (m : BitVec 2) : Mode :=
  match m.getLsbD 1, m.getLsbD 0 with
  | false, false => .ui
  | false, true => .si
  | true, false => .ud
  | true, true => .sd

/-- A VLE command: MODE must be 0 and R in the set (R72, R73). -/
def decodeVle (w : Word) (command : Reserved → Instr) : Except Illegal Instr :=
  match decodeR (rOf w) with
  | none => .error .rField
  | some r => if modeOf w = 0 then .ok (command r) else .error .modeField

/-- A space command: R and MODE must be 0 (R72, R73). -/
def decodeSpace (w : Word) (command : Instr) : Except Illegal Instr :=
  if rOf w ≠ 0 then .error .rField
  else if modeOf w ≠ 0 then .error .modeField
  else .ok command

/-- A numeric command: R must be 0 and MODE is any (R72, R73). -/
def decodeNumeric (w : Word) (command : Mode → Instr) : Except Illegal Instr :=
  if rOf w ≠ 0 then .error .rField else .ok (command (decodeMode (modeOf w)))

/-- The command a word means, or why it means none (R71, R74, R75). -/
def decode (w : Word) : Except Illegal Instr :=
  if reservedClear w then
    match (opcOf w).toNat with
    | 1 => decodeVle w Instr.vleEnc
    | 2 => decodeVle w Instr.vleDec
    | 3 => decodeSpace w .spcEnc
    | 4 => decodeSpace w .spcDec
    | 5 => decodeNumeric w Instr.numEnc
    | 6 => decodeNumeric w Instr.numDec
    | _ => .error .opcode
  else .error .reservedBits

/-- The word a VLE command is written as (R76). -/
def encodeVle (opc : Word) (r : Reserved) : Word := opc ||| BitVec.ofNat 64 r.count <<< 4

/-- The word a numeric command is written as (R76). -/
def encodeNumeric (opc : Word) (m : Mode) : Word := opc ||| m.field.setWidth 64 <<< 8

/-- The command word of each command (R76). -/
def encode : Instr → Word
  | .vleEncR0 => encodeVle 0x1 .r0
  | .vleEncR1 => encodeVle 0x1 .r1
  | .vleEncR4 => encodeVle 0x1 .r4
  | .vleEncR5 => encodeVle 0x1 .r5
  | .vleEncR6 => encodeVle 0x1 .r6
  | .vleDecR0 => encodeVle 0x2 .r0
  | .vleDecR1 => encodeVle 0x2 .r1
  | .vleDecR4 => encodeVle 0x2 .r4
  | .vleDecR5 => encodeVle 0x2 .r5
  | .vleDecR6 => encodeVle 0x2 .r6
  | .spcEnc => 0x3
  | .spcDec => 0x4
  | .numEncUi => encodeNumeric 0x5 .ui
  | .numEncSi => encodeNumeric 0x5 .si
  | .numEncUd => encodeNumeric 0x5 .ud
  | .numEncSd => encodeNumeric 0x5 .sd
  | .numDecUi => encodeNumeric 0x6 .ui
  | .numDecSi => encodeNumeric 0x6 .si
  | .numDecUd => encodeNumeric 0x6 .ud
  | .numDecSd => encodeNumeric 0x6 .sd

/-- The command the decoder reads from a word numbered as the opcode table numbers it. A command word is one 64-bit
word, so a number of more bits is none; the bits above a row's own are 0. -/
def decodeTableWord (_nbits w : Nat) : Option Instr :=
  if w < 2 ^ 64 then (decode (BitVec.ofNat 64 w)).toOption else none

end Sys2Proof
end

