-- ==== Sys2Proof/Config.lean ====
section
/-! DEFINITION. What the spec fixes once for the unit (R6, R7), and the values it leaves open. -/

namespace Sys2Proof.Config

/-- The value R7 takes for the parameter IBUF_CAP, the number of IBUF bytes. The parameter itself is
`Machine.State.ibufCap`, so that the machine of every capacity is modelled. Log entry 7. -/
abbrev ibufCapDefault : Nat := 16

/-- The least IBUF_CAP (R7, R172): the longest token. -/
abbrev ibufCapMin : Nat := 11

/-- The greatest IBUF_CAP: IBUF starts at offset 0x80 of a 256-byte window (R20, R50). DEDUCED, log entry 7. -/
abbrev ibufCapMax : Nat := 128

/-- The window offset of IBUF[0] (R20). -/
abbrev ibufBase : Nat := 0x80

/-- CHUNK_BITS: data bits of a continuation byte (R6). -/
abbrev chunkBits : Nat := 7

/-- SPACE_CHUNK_MAX: the most spaces one tagged byte stands for (R6). -/
abbrev spaceChunkMax : Nat := 63

/-- DP_MAX: the largest legal decimal-place count (R6). -/
abbrev dpMax : Nat := 15

/-- ZCU_BASE, the platform's placement of the register window (R50, D21). It has no value here: nothing can be proved
that needs one. Log entry 8. -/
opaque zcuBase : Nat

/-- FREE VALUE. What OUT_LEN reads as when OUT holds 2^64 bytes or more: R31 has it read as len(OUT), which a 64-bit
register cannot hold. DESIGN CHOICE, log entry 5. -/
opaque outLenBeyond : List Byte → Word

end Sys2Proof.Config
end

