-- ==== Sys2Proof/Machine/State.lean ====
section
/-! DEFINITION. The state of the ZCU and of the host that drives it, as plain data (10_state.md R20 to R38). -/

namespace Sys2Proof.Machine

/-- Memory: a list of (window offset, byte) in canonical form (`Memory.wf`): offsets strictly rising, none of them
outside IBUF, and no entry equal to `Memory.unlisted`. Log entry 9. -/
abbrev Memory := List Host.Cell

/-- What happens next from outside the ZCU: one host access to the register window (R50, R51), or the platform's
reset (R230). Offsets are those of the 256-byte window. Log entries 1 and 8. -/
inductive HostOp where
  /-- `MemRead(ZCU_BASE + off, n)`. -/
  | read (off : BitVec 8) (n : Nat)
  /-- `MemWrite(ZCU_BASE + off, n, v)`. A one-byte write carries its byte in `v[7:0]` (log entry 10). -/
  | write (off : BitVec 8) (n : Nat) (v : Word)
  /-- The platform asserts reset (R230). -/
  | reset
  deriving DecidableEq, Repr

/-- The complete ZCU state (R38), and after it the model's own record of the host (R5). -/
structure State where
  /-- CMD (R22): the last word written. -/
  cmd : Word
  /-- STATUS.ACCEPT (R23, R24). -/
  accept : Bool
  /-- STATUS.ERR (R23, R25, R200). -/
  err : BitVec 4
  /-- STATUS.FAULT (R23, R26), sticky. -/
  fault : Bool
  /-- ARG_VALUE (R27). -/
  argValue : Word
  /-- ARG_COUNT (R28). -/
  argCount : Word
  /-- ARG_AUX.PREFIX (R29). -/
  argPrefix : Byte
  /-- ARG_AUX.NEG (R29). -/
  argNeg : Bool
  /-- ARG_AUX.DP (R29), eight bits wide so that a count above 15 can be presented. -/
  argDp : Byte
  /-- IBUF (R30), the bytes at window offsets 0x80 to 0x80 + IBUF_CAP − 1. -/
  ibuf : Memory
  /-- IBUF_LEN (R30): 0 to IBUF_CAP, an invariant (`State.good`). -/
  ibufLen : Nat
  /-- RES_VALUE (R32). -/
  resValue : Word
  /-- RES_LEN (R33). -/
  resLen : Word
  /-- RES_AUX.PREFIX (R34). -/
  resPrefix : Byte
  /-- RES_AUX.NEG (R34). -/
  resNeg : Bool
  /-- RES_AUX.DP (R34). -/
  resDp : BitVec 4
  /-- OUT (R31), the byte to be popped next first. -/
  out : List Byte
  /-- The parameter IBUF_CAP (R7, R30; U19 of 93_implementation_defined.md), fixed for a machine: no step changes it. Held
  here so that a machine of any capacity can be run and spoken of. DESIGN CHOICE, log entry 7. -/
  ibufCap : Nat
  /-- THE MODEL'S OWN: the coming host accesses and resets, in order. DESIGN CHOICE, log entry 1. -/
  hostQueue : List HostOp
  /-- THE MODEL'S OWN: what host reads have returned, oldest first. DESIGN CHOICE, log entry 1. -/
  hostReads : List Word
  deriving DecidableEq, Repr

/-- The machine of IBUF_CAP = `cap` right after reset (R231), with nothing coming from the host yet (log entries 3
and 7). -/
def State.resetWith (cap : Nat) : State where
  cmd := 0
  accept := false
  err := 0
  fault := false
  argValue := 0
  argCount := 0
  argPrefix := 0
  argNeg := false
  argDp := 0
  ibuf := []
  ibufLen := 0
  resValue := 0
  resLen := 0
  resPrefix := 0
  resNeg := false
  resDp := 0
  out := []
  ibufCap := cap
  hostQueue := []
  hostReads := []

/-- The machine right after reset, with the IBUF_CAP of R7. -/
def State.reset : State := State.resetWith Config.ibufCapDefault

/-- Why the machine stops. The ZCU's own errors are no faults of the model: they are raises, which are next states
(R203). -/
inductive Fault where
  /-- A host access that R51 refuses: a wrong size, a misaligned address, or a reserved offset. The spec gives the
  host no step for it, so the host is stuck. Raised by `hostStep`. Safe: the model claims nothing of what a real bus
  would do. Log entry 4. -/
  | refusedAccess
  deriving DecidableEq, Repr

/-- Why an instruction has no meaning. -/
inductive Refusal where
  /-- An arm of `exec` without a meaning. No arm of this model answers it. Safe: it stops the machine. -/
  | notModelled (mnemonic : String)
  deriving DecidableEq, Repr

end Sys2Proof.Machine
end

