-- ==== Sys2Proof/Machine/Flags.lean ====
section
/-! DEFINITION. STATUS: the error codes and the value a host reads (R23 to R26, R200). -/

namespace Sys2Proof.Machine

/-- The named error codes of STATUS.ERR (R200). -/
inductive ErrCode where
  | none | illegal | trunc | overlong | badTag | operand | dpRange | faulted
  deriving DecidableEq, Repr

/-- The number of an error code (R200). Codes 8 to 15 are never written. -/
def ErrCode.code : ErrCode → BitVec 4
  | .none => 0
  | .illegal => 1
  | .trunc => 2
  | .overlong => 3
  | .badTag => 4
  | .operand => 5
  | .dpRange => 6
  | .faulted => 7

/-- A one-bit field at bit `i` of a register. -/
def bitAt (i : Nat) (b : Bool) : Word := (BitVec.ofBool b).setWidth 64 <<< i

/-- STATUS as a host reads it (R23): ACCEPT in bit 0, ERR in bits [7:4], FAULT in bit 8, the rest 0. -/
def statusWord (s : State) : Word :=
  bitAt 0 s.accept ||| s.err.setWidth 64 <<< 4 ||| bitAt 8 s.fault

/-- ACCEPT and ERR after a command that commits (R24, R25). -/
def flagsCommitted (s : State) : State := { s with accept := true, err := ErrCode.none.code }

/-- ACCEPT and ERR after a NUM.ENC that declines (R24, R155). -/
def flagsDeclined (s : State) : State := { s with accept := false, err := ErrCode.none.code }

/-- STATUS after a raise of `e` (R203): only DPRANGE writes FAULT, and nothing but reset clears it. -/
def flagsRaised (e : ErrCode) (s : State) : State :=
  { s with accept := false, err := e.code, fault := s.fault || e == .dpRange }

end Sys2Proof.Machine
end

