-- ==== Sys2Proof/Machine/Ops.lean ====
section
/-! DEFINITION. The operations every command is built from: IBUF memory, commit (R11), raise (R203), decline (R155),
and the run of one command. -/

namespace Sys2Proof.Machine

/-- What an unlisted byte of IBUF reads as: its reset content (R231). -/
def Memory.unlisted : Byte := 0

/-- The byte at a window offset. -/
def Memory.read (m : Memory) (a : Nat) : Byte :=
  match m with
  | [] => Memory.unlisted
  | (k, b) :: rest => if k = a then b else Memory.read rest a

/-- An entry put before the first one with a higher offset. -/
def Memory.insertCell (m : Memory) (c : Host.Cell) : Memory :=
  match m with
  | [] => [c]
  | d :: rest => if c.1 < d.1 then c :: d :: rest else d :: Memory.insertCell rest c

/-- The memory with the byte at a window offset replaced, in canonical form again. -/
def Memory.write (m : Memory) (a : Nat) (b : Byte) : Memory :=
  let others := m.filter (fun c => c.1 ≠ a)
  if b = Memory.unlisted then others else Memory.insertCell others (a, b)

/-- Offsets rise strictly from `lo` on, stay below `hi`, and no entry is what an unlisted byte reads as. -/
def Memory.wfFrom (hi lo : Nat) : Memory → Bool
  | [] => true
  | (a, b) :: rest => lo ≤ a && a < hi && b != Memory.unlisted && Memory.wfFrom hi (a + 1) rest

/-- The canonical form of an IBUF of `cap` bytes: equal memories are equal lists. -/
def Memory.wf (cap : Nat) (m : Memory) : Bool := Memory.wfFrom (Config.ibufBase + cap) Config.ibufBase m

/-- What a committing command writes to RES_VALUE, RES_LEN and RES_AUX (R32 to R34). A field a command's rule does not
name is 0. -/
structure Results where
  value : Word := 0
  len : Word := 0
  pre : Byte := 0
  neg : Bool := false
  dp : BitVec 4 := 0
  deriving DecidableEq, Repr

/-- How a command ends (R11): it commits its pending output and its results, raises an error, or declines. -/
inductive Ending where
  | commit (emitted : List Byte) (res : Results)
  | raise (e : ErrCode)
  | decline
  deriving DecidableEq, Repr

/-- Commit (R11): the pending output goes to the tail of OUT, then all result registers and STATUS are written. -/
def commit (emitted : List Byte) (res : Results) (s : State) : State :=
  flagsCommitted
    { s with
      out := s.out ++ emitted
      resValue := res.value
      resLen := res.len
      resPrefix := res.pre
      resNeg := res.neg
      resDp := res.dp }

/-- Raise (R203): the pending output is discarded and STATUS written; nothing else changes. This is all there is of
taking an exception (R208); there is no return from one (R209). -/
def raise (e : ErrCode) (s : State) : State := flagsRaised e s

/-- Decline (R155): nothing is emitted and no result register is written. -/
def decline (s : State) : State := flagsDeclined s

/-- The state a command's ending leaves. -/
def finish (e : Ending) (s : State) : State :=
  match e with
  | .commit emitted res => commit emitted res s
  | .raise code => raise code s
  | .decline => decline s

/-- One command, from its ending: while FAULT is set it is refused with FAULTED before anything else is examined (R205,
R206). -/
def runCommand (body : State → Ending) (s : State) : Host.Outcome State Fault Refusal :=
  .next (if s.fault then raise .faulted s else finish (body s) s)

/-- A decode command: what it emits and its results, or the first error its reading met (R206). -/
def endingOf (d : Except ErrCode (List Byte × Results)) : Ending :=
  match d with
  | .ok (emitted, res) => .commit emitted res
  | .error e => .raise e

/-- An encode command: it emits a byte string and reports its length; the other results are 0 (R104, R132, R154). -/
def endingEmit (emitted : List Byte) : Ending :=
  .commit emitted { len := BitVec.ofNat 64 emitted.length }

end Sys2Proof.Machine
end

