-- ==== Sys2Proof/Machine/Operands.lean ====
section
/-! DEFINITION. Where commands take their operands from: the input primitive (R52), the stream byte classes (R80), and
the small bit fields the codecs read. The argument registers (R27 to R29) are read as fields of State. -/

namespace Sys2Proof.Machine

/-- IBUF[i] (R30), whatever IBUF_LEN is. -/
def ibufByte (s : State) (i : Nat) : Byte := Memory.read s.ibuf (Config.ibufBase + i)

/-- `InByte(i)` (R52): a read at or past IBUF_LEN raises TRUNC. -/
def inByte (s : State) (i : Nat) : Except ErrCode Byte :=
  if s.ibufLen ≤ i then .error .trunc else .ok (ibufByte s i)

/-- The classes of a stream byte (R80). -/
inductive ByteClass where
  | literal | spaceRun | numericLead
  deriving DecidableEq, Repr

/-- The class of a stream byte, by its top two bits (R80). -/
def byteClass (b : Byte) : ByteClass :=
  match b.getLsbD 7, b.getLsbD 6 with
  | false, _ => .literal
  | true, false => .spaceRun
  | true, true => .numericLead

/-- A byte's low `d` bits as a value. -/
def lowBits (d : Nat) (b : Byte) : Word := (b &&& BitVec.ofNat 8 (2 ^ d - 1)).setWidth 64

/-- A value's low `d` bits as a byte, for `d ≤ 8`. -/
def lowByte (d : Nat) (v : Word) : Byte := (v &&& BitVec.ofNat 64 (2 ^ d - 1)).setWidth 8

/-- A byte with its `r` low bits cleared: the caller's bits [7:r] (R104, R110). -/
def keepAbove (r : Nat) (b : Byte) : Byte := b &&& 0xFF#8 <<< r

/-- A one-bit field at bit `i` of a byte. -/
def byteBit (i : Nat) (b : Bool) : Byte := (BitVec.ofBool b).setWidth 8 <<< i

end Sys2Proof.Machine
end

