-- ==== Sys2Proof/Machine/Vle.lean ====
section
/-! DEFINITION. The VLE engine: VLE.ENC and VLE.DEC (40_vle.md R100 to R111). -/

namespace Sys2Proof.Machine

/-- `leb(v)` (R101) with at most `fuel` chunks. -/
def lebChunks (fuel : Nat) (v : Word) : List Byte :=
  match fuel with
  | 0 => []
  | fuel + 1 =>
    let c := lowByte Config.chunkBits v
    let rest := v >>> Config.chunkBits
    if rest = 0 then [c] else (c ||| 0x80) :: lebChunks fuel rest

/-- `leb(v)` (R101): the 7-bit chunks of v, least significant first, all but the last with bit 7 set. Ten chunks hold
64 bits, so the bound never bites (`lebChunks_fuel`; DEDUCED, log entry 11). -/
def leb (v : Word) : List Byte := lebChunks 10 v

/-- `vle_encode` for r in 4, 5, 6 (R104): r − 1 data bits and the continuation flag at bit r − 1 (R100). -/
def vleEncodeShared (r : Nat) (v : Word) (pre : Byte) : List Byte :=
  let d := r - 1
  let low := lowByte d v
  let rest := v >>> d
  let keep := keepAbove r pre
  if rest = 0 then [keep ||| low] else (keep ||| 1#8 <<< d ||| low) :: leb rest

/-- `vle_encode(v, r, prefix)` (R104). For r = 0 no byte is shared (R103); for r = 1 there is no continuation flag and
continuation bytes always follow (R102). -/
def vleEncode (v : Word) (r : Reserved) (pre : Byte) : List Byte :=
  match r with
  | .r0 => leb v
  | .r1 => (keepAbove 1 pre ||| lowByte 1 v) :: leb (v >>> 1)
  | .r4 => vleEncodeShared 4 v pre
  | .r5 => vleEncodeShared 5 v pre
  | .r6 => vleEncodeShared 6 v pre

/-- The loop of `leb_decode` (R108) from byte `k` on, with at most `fuel` bytes. The order of its checks is R206's:
the offset, then the read, then the chunk's range. -/
def lebDecodeFrom (s : State) (pos d : Nat) (fuel k : Nat) (acc : Word) : Except ErrCode (Word × Nat) :=
  match fuel with
  | 0 => .error .overlong
  | fuel + 1 =>
    let off := d + Config.chunkBits * k
    if 64 ≤ off then .error .overlong
    else
      match inByte s (pos + k) with
      | .error e => .error e
      | .ok b =>
        let c := lowBits Config.chunkBits b
        if 57 < off ∧ c >>> (64 - off) ≠ 0 then .error .overlong
        else
          let acc' := acc ||| c <<< off
          if b.getLsbD 7 then lebDecodeFrom s pos d fuel (k + 1) acc' else .ok (acc', k + 1)

/-- `leb_decode(pos, d, acc)` (R108): the value and how many continuation bytes it took. Byte k = 10
starts at offset 70 or above, which R108 refuses, so the bound never bites (DEDUCED, log entry 11). -/
def lebDecode (s : State) (pos d : Nat) (acc : Word) : Except ErrCode (Word × Nat) :=
  lebDecodeFrom s pos d 11 0 acc

/-- `vle_decode` for r in 4, 5, 6 (R111). -/
def vleDecodeShared (s : State) (base r : Nat) : Except ErrCode (Word × Nat) :=
  let d := r - 1
  match inByte s base with
  | .error e => .error e
  | .ok b0 =>
    let low := lowBits d b0
    if b0.getLsbD d then (lebDecode s (base + 1) d low).map (fun p => (p.1, p.2 + 1)) else .ok (low, 1)

/-- `vle_decode` for r = 1 (R111). -/
def vleDecodeOne (s : State) (base : Nat) : Except ErrCode (Word × Nat) :=
  match inByte s base with
  | .error e => .error e
  | .ok b0 => (lebDecode s (base + 1) 1 (lowBits 1 b0)).map (fun p => (p.1, p.2 + 1))

/-- `vle_decode(base, r)` (R111): the value and how many bytes it took. -/
def vleDecode (s : State) (base : Nat) (r : Reserved) : Except ErrCode (Word × Nat) :=
  match r with
  | .r0 => lebDecode s base 0 0
  | .r1 => vleDecodeOne s base
  | .r4 => vleDecodeShared s base 4
  | .r5 => vleDecodeShared s base 5
  | .r6 => vleDecodeShared s base 6

/-- VLE.ENC (R104). -/
def vleEncCommand (r : Reserved) (s : State) : Ending := endingEmit (vleEncode s.argValue r s.argPrefix)

/-- The PREFIX that VLE.DEC reports (R110): byte 0 with its r low bits cleared, 0 for r = 0. -/
def decodedPrefix (s : State) (r : Reserved) : Byte :=
  match r with
  | .r0 => 0
  | _ => keepAbove r.count (ibufByte s 0)

/-- VLE.DEC (R110): nothing is emitted. -/
def vleDecCommand (r : Reserved) (s : State) : Ending :=
  endingOf ((vleDecode s 0 r).map
    (fun p => ([], { value := p.1, len := BitVec.ofNat 64 p.2, pre := decodedPrefix s r })))

/-- `VLE.ENC r=0` (R104). -/
def execVleEncR0 (s : State) : Host.Outcome State Fault Refusal := runCommand (vleEncCommand .r0) s

/-- `VLE.ENC r=1` (R104). -/
def execVleEncR1 (s : State) : Host.Outcome State Fault Refusal := runCommand (vleEncCommand .r1) s

/-- `VLE.ENC r=4` (R104). -/
def execVleEncR4 (s : State) : Host.Outcome State Fault Refusal := runCommand (vleEncCommand .r4) s

/-- `VLE.ENC r=5` (R104). -/
def execVleEncR5 (s : State) : Host.Outcome State Fault Refusal := runCommand (vleEncCommand .r5) s

/-- `VLE.ENC r=6` (R104). -/
def execVleEncR6 (s : State) : Host.Outcome State Fault Refusal := runCommand (vleEncCommand .r6) s

/-- `VLE.DEC r=0` (R110). -/
def execVleDecR0 (s : State) : Host.Outcome State Fault Refusal := runCommand (vleDecCommand .r0) s

/-- `VLE.DEC r=1` (R110). -/
def execVleDecR1 (s : State) : Host.Outcome State Fault Refusal := runCommand (vleDecCommand .r1) s

/-- `VLE.DEC r=4` (R110). -/
def execVleDecR4 (s : State) : Host.Outcome State Fault Refusal := runCommand (vleDecCommand .r4) s

/-- `VLE.DEC r=5` (R110). -/
def execVleDecR5 (s : State) : Host.Outcome State Fault Refusal := runCommand (vleDecCommand .r5) s

/-- `VLE.DEC r=6` (R110). -/
def execVleDecR6 (s : State) : Host.Outcome State Fault Refusal := runCommand (vleDecCommand .r6) s

end Sys2Proof.Machine
end

