-- ==== Sys2Proof/Machine/Numeric.lean ====
section
/-! DEFINITION. The numeric token codecs: NUM.ENC and NUM.DEC (42_numeric.md R150 to R167). -/

namespace Sys2Proof.Machine

/-- The tag "11" of a numeric lead byte (R80). -/
def numericTag : Byte := 0xC0

/-- `declines(mode, v, neg, dp)` (R152): the literal text is at least as compact. -/
def declines (m : Mode) (v : Word) (neg : Bool) (dp : Byte) : Bool :=
  match m with
  | .ui => v.toNat < 10 || (31 < v.toNat && v.toNat < 100)
  | .si => !neg && dp == 0 && v.toNat < 100
  | .ud => dp == 0 && v.toNat < 100
  | .sd => dp == 0 && v.toNat < 100

/-- Operands the Mode cannot represent (R153): a sign in UI or UD, decimal places in UI or SI. -/
def unrepresentable (m : Mode) (neg : Bool) (dp : Byte) : Bool :=
  match m with
  | .ui => neg || dp != 0
  | .si => dp != 0
  | .ud => neg
  | .sd => false

/-- `num_encode(mode, v, neg, dp)` (R154, R156 to R160): the lead byte's metadata of R83 to R88, the magnitude through
the VLE with the r of R151. -/
def numEncode (m : Mode) (v : Word) (neg : Bool) (dp : Byte) : List Byte :=
  match m with
  | .ui => vleEncode v .r6 numericTag
  | .si => vleEncode v .r5 (numericTag ||| byteBit 5 neg)
  | .ud =>
    if dp = 0 then vleEncode v .r4 numericTag
    else vleEncode v .r1 (numericTag ||| byteBit 5 true ||| dp <<< 1)
  | .sd =>
    if dp = 0 then vleEncode v .r4 (numericTag ||| byteBit 5 neg)
    else (numericTag ||| byteBit 5 neg ||| byteBit 4 true ||| dp) :: vleEncode v .r0 0

/-- NUM.ENC (R154), its checks in R153's and R206's order. -/
def numEncCommand (m : Mode) (s : State) : Ending :=
  if Config.dpMax < s.argDp.toNat then .raise .dpRange
  else if unrepresentable m s.argNeg s.argDp then .raise .operand
  else if declines m s.argValue s.argNeg s.argDp then .decline
  else endingEmit (numEncode m s.argValue s.argNeg s.argDp)

/-- A numeric payload (R150) as a token holds it, with the token's length. -/
structure Token where
  magnitude : Word
  neg : Bool
  dp : BitVec 4
  len : Nat
  deriving DecidableEq, Repr

/-- The metadata a lead byte carries, beside the magnitude that the VLE reads from `base` on with `r` reserved bits
(R151, R166). -/
structure Layout where
  r : Reserved
  base : Nat
  neg : Bool
  dp : BitVec 4
  deriving DecidableEq, Repr

/-- The layout of a lead byte (R83 to R88), chosen as the decoder chooses it (R151, R166). -/
def leadLayout (m : Mode) (b0 : Byte) : Layout :=
  match m with
  | .ui => ⟨.r6, 0, false, 0⟩
  | .si => ⟨.r5, 0, b0.getLsbD 5, 0⟩
  | .ud => if b0.getLsbD 5 then ⟨.r1, 0, false, b0.extractLsb' 1 4⟩ else ⟨.r4, 0, false, 0⟩
  | .sd =>
    if b0.getLsbD 4 then ⟨.r0, 1, b0.getLsbD 5, b0.extractLsb' 0 4⟩ else ⟨.r4, 0, b0.getLsbD 5, 0⟩

/-- `num_decode(mode)` (R166). A magnitude that starts at byte 1 has a lead byte of its own before it, which the length
counts. -/
def numDecode (m : Mode) (s : State) : Except ErrCode Token :=
  match inByte s 0 with
  | .error e => .error e
  | .ok b0 =>
    match byteClass b0 with
    | .literal => .error .badTag
    | .spaceRun => .error .badTag
    | .numericLead =>
      let l := leadLayout m b0
      (vleDecode s l.base l.r).map (fun p => ⟨p.1, l.neg, l.dp, p.2 + l.base⟩)

/-- The ASCII code of a decimal digit (R167). -/
def digitChar (d : Nat) : Byte := BitVec.ofNat 8 (0x30 + d)

/-- The decimal digits of a number below 10^fuel, most significant first. -/
def digitsUpTo (fuel n : Nat) : List Byte :=
  match fuel with
  | 0 => []
  | fuel + 1 => if n < 10 then [digitChar n] else digitsUpTo fuel (n / 10) ++ [digitChar (n % 10)]

/-- `digits(v)` (R167): no leading zeros, and digits(0) = "0". A 64-bit value has at most 20 digits, so the bound never
bites (DEDUCED, log entry 11). -/
def digits (v : Word) : List Byte := digitsUpTo 20 v.toNat

/-- ASCII '.' (R167). -/
def pointChar : Byte := 0x2E

/-- ASCII '-' (R167). -/
def minusChar : Byte := 0x2D

/-- The body of `render` (R167): the digits with '.' put `dp` digits from the right, after at least one integer
digit. -/
def renderBody (v : Word) (dp : Nat) : List Byte :=
  let s := digits v
  let n := s.length
  if dp = 0 then s
  else if dp < n then s.take (n - dp) ++ [pointChar] ++ s.drop (n - dp)
  else [digitChar 0, pointChar] ++ List.replicate (dp - n) (digitChar 0) ++ s

/-- `render(v, neg, dp)` (R167). -/
def render (v : Word) (neg : Bool) (dp : BitVec 4) : List Byte :=
  (if neg then [minusChar] else []) ++ renderBody v dp.toNat

/-- NUM.DEC (R165). -/
def numDecCommand (m : Mode) (s : State) : Ending :=
  endingOf ((numDecode m s).map (fun t =>
    (render t.magnitude t.neg t.dp,
      { value := t.magnitude, len := BitVec.ofNat 64 t.len, neg := t.neg, dp := t.dp })))

/-- `NUM.ENC UI` (R154). -/
def execNumEncUi (s : State) : Host.Outcome State Fault Refusal := runCommand (numEncCommand .ui) s

/-- `NUM.ENC SI` (R154). -/
def execNumEncSi (s : State) : Host.Outcome State Fault Refusal := runCommand (numEncCommand .si) s

/-- `NUM.ENC UD` (R154). -/
def execNumEncUd (s : State) : Host.Outcome State Fault Refusal := runCommand (numEncCommand .ud) s

/-- `NUM.ENC SD` (R154). -/
def execNumEncSd (s : State) : Host.Outcome State Fault Refusal := runCommand (numEncCommand .sd) s

/-- `NUM.DEC UI` (R165). -/
def execNumDecUi (s : State) : Host.Outcome State Fault Refusal := runCommand (numDecCommand .ui) s

/-- `NUM.DEC SI` (R165). -/
def execNumDecSi (s : State) : Host.Outcome State Fault Refusal := runCommand (numDecCommand .si) s

/-- `NUM.DEC UD` (R165). -/
def execNumDecUd (s : State) : Host.Outcome State Fault Refusal := runCommand (numDecCommand .ud) s

/-- `NUM.DEC SD` (R165). -/
def execNumDecSd (s : State) : Host.Outcome State Fault Refusal := runCommand (numDecCommand .sd) s

end Sys2Proof.Machine
end

