-- ==== Sys2Proof/Machine/Space.lean ====
section
/-! DEFINITION. The space run-length codec: SPC.ENC and SPC.DEC (41_space.md R130 to R137). -/

namespace Sys2Proof.Machine

/-- The ASCII code of the space character (R131). -/
def spaceChar : Byte := 0x20

/-- A tagged space byte: tag "10" and a 6-bit count (R81, R130). -/
def spaceByte (count : Nat) : Byte := 0x80#8 ||| BitVec.ofNat 8 count

/-- `space_encode(N)` (R131): a single space is a literal; otherwise full chunks of 63 first, then the remainder. -/
def spaceEncode (count : Word) : List Byte :=
  let n := count.toNat
  if n = 0 then []
  else if n = 1 then [spaceChar]
  else
    List.replicate (n / Config.spaceChunkMax) (spaceByte Config.spaceChunkMax) ++
      (if n % Config.spaceChunkMax ≠ 0 then [spaceByte (n % Config.spaceChunkMax)] else [])

/-- SPC.ENC (R132). -/
def spcEncCommand (s : State) : Ending := endingEmit (spaceEncode s.argCount)

/-- SPC.DEC's reading of byte 0 (R136): the spaces and the count; a count of 0 is zero spaces (R137). -/
def spaceDecode (b : Byte) : Except ErrCode (List Byte × Results) :=
  match byteClass b with
  | .spaceRun =>
    .ok (List.replicate (lowBits 6 b).toNat spaceChar, { value := lowBits 6 b, len := 1 })
  | .literal => .error .badTag
  | .numericLead => .error .badTag

/-- SPC.DEC (R136): the read of byte 0 may raise TRUNC before the tag is looked at (R206). -/
def spcDecCommand (s : State) : Ending :=
  endingOf (match inByte s 0 with
    | .error e => .error e
    | .ok b => spaceDecode b)

/-- `SPC.ENC` (R132). -/
def execSpcEnc (s : State) : Host.Outcome State Fault Refusal := runCommand spcEncCommand s

/-- `SPC.DEC` (R136). -/
def execSpcDec (s : State) : Host.Outcome State Fault Refusal := runCommand spcDecCommand s

end Sys2Proof.Machine
end

