-- ==== Sys2Proof/Machine/Dispatch.lean ====
section
/-! DEFINITION. Each command's meaning (R71). CMD already holds the command's word when its meaning runs (R22). -/

namespace Sys2Proof.Machine

def exec (i : Instr) (s : State) : Host.Outcome State Fault Refusal :=
  match i with
  | .vleEncR0 => Sys2Proof.Machine.execVleEncR0 s
  | .vleEncR1 => Sys2Proof.Machine.execVleEncR1 s
  | .vleEncR4 => Sys2Proof.Machine.execVleEncR4 s
  | .vleEncR5 => Sys2Proof.Machine.execVleEncR5 s
  | .vleEncR6 => Sys2Proof.Machine.execVleEncR6 s
  | .vleDecR0 => Sys2Proof.Machine.execVleDecR0 s
  | .vleDecR1 => Sys2Proof.Machine.execVleDecR1 s
  | .vleDecR4 => Sys2Proof.Machine.execVleDecR4 s
  | .vleDecR5 => Sys2Proof.Machine.execVleDecR5 s
  | .vleDecR6 => Sys2Proof.Machine.execVleDecR6 s
  | .spcEnc => Sys2Proof.Machine.execSpcEnc s
  | .spcDec => Sys2Proof.Machine.execSpcDec s
  | .numEncUi => Sys2Proof.Machine.execNumEncUi s
  | .numEncSi => Sys2Proof.Machine.execNumEncSi s
  | .numEncUd => Sys2Proof.Machine.execNumEncUd s
  | .numEncSd => Sys2Proof.Machine.execNumEncSd s
  | .numDecUi => Sys2Proof.Machine.execNumDecUi s
  | .numDecSi => Sys2Proof.Machine.execNumDecSi s
  | .numDecUd => Sys2Proof.Machine.execNumDecUd s
  | .numDecSd => Sys2Proof.Machine.execNumDecSd s

end Sys2Proof.Machine
end

