-- ==== Sys2Proof/Machine/HostPort.lean ====
section
/-! DEFINITION. The register window (R20 to R34, R50, R51): what each host access reads, writes and sets off, and the
platform's reset (R230). -/

namespace Sys2Proof.Machine

/-- The 64-bit registers of the window (R20). -/
inductive Reg where
  | cmd | status | argValue | argCount | argAux | ibufLen | resValue | resLen | resAux | outLen | outData
  deriving DecidableEq, Repr

/-- A register's byte offset in the window (R20). -/
def Reg.offset : Reg → BitVec 8
  | .cmd => 0x00
  | .status => 0x08
  | .argValue => 0x10
  | .argCount => 0x18
  | .argAux => 0x20
  | .ibufLen => 0x28
  | .resValue => 0x30
  | .resLen => 0x38
  | .resAux => 0x40
  | .outLen => 0x48
  | .outData => 0x50

/-- The register at a window offset, if one starts exactly there (R20, R51). -/
def regAt (off : BitVec 8) : Option Reg :=
  match off.toNat with
  | 0x00 => some .cmd
  | 0x08 => some .status
  | 0x10 => some .argValue
  | 0x18 => some .argCount
  | 0x20 => some .argAux
  | 0x28 => some .ibufLen
  | 0x30 => some .resValue
  | 0x38 => some .resLen
  | 0x40 => some .resAux
  | 0x48 => some .outLen
  | 0x50 => some .outData
  | _ => none

/-- What a legal access reaches: a whole register, or one byte of IBUF by its window offset. -/
inductive Location where
  | reg (r : Reg)
  | ibuf (off : Nat)
  deriving DecidableEq, Repr

/-- What an access of `n` bytes at an offset reaches in a unit of IBUF_CAP = `cap`; none where R51 refuses it. -/
def locate (cap : Nat) (off : BitVec 8) (n : Nat) : Option Location :=
  if n = 8 then (regAt off).map .reg
  else if n = 1 ∧ Config.ibufBase ≤ off.toNat ∧ off.toNat < Config.ibufBase + cap then
    some (.ibuf off.toNat)
  else none

/-- OUT_LEN (R31): the number of bytes in OUT, a free value where 64 bits cannot hold it (log entry 5). -/
def outLenWord (s : State) : Word :=
  if s.out.length < 2 ^ 64 then BitVec.ofNat 64 s.out.length else Config.outLenBeyond s.out

/-- OUT_DATA (R31): the byte at the head of OUT, or 0x100 when there is none. -/
def outDataWord (s : State) : Word :=
  match s.out with
  | [] => 0x100
  | b :: _ => b.setWidth 64

/-- ARG_AUX as a host reads it (R29): PREFIX [7:0], NEG [8], DP [23:16], the rest 0. -/
def argAuxWord (s : State) : Word :=
  s.argPrefix.setWidth 64 ||| bitAt 8 s.argNeg ||| s.argDp.setWidth 64 <<< 16

/-- RES_AUX as a host reads it (R34): PREFIX [7:0], NEG [8], DP [19:16], the rest 0. -/
def resAuxWord (s : State) : Word :=
  s.resPrefix.setWidth 64 ||| bitAt 8 s.resNeg ||| s.resDp.setWidth 64 <<< 16

/-- The value a read of a register returns (R20, R22 to R34). -/
def regWord (r : Reg) (s : State) : Word :=
  match r with
  | .cmd => s.cmd
  | .status => statusWord s
  | .argValue => s.argValue
  | .argCount => s.argCount
  | .argAux => argAuxWord s
  | .ibufLen => BitVec.ofNat 64 s.ibufLen
  | .resValue => s.resValue
  | .resLen => s.resLen
  | .resAux => resAuxWord s
  | .outLen => outLenWord s
  | .outData => outDataWord s

/-- The value a read of a location returns; an IBUF byte is zero-extended. -/
def locationWord (l : Location) (s : State) : Word :=
  match l with
  | .reg r => regWord r s
  | .ibuf a => (Memory.read s.ibuf a).setWidth 64

/-- What a read does beside returning a value (R56): only OUT_DATA changes anything, by removing the byte it returned
(R31). -/
def readEffect (l : Location) (s : State) : State :=
  match l with
  | .reg .outData => { s with out := s.out.tail }
  | _ => s

/-- IBUF_LEN legalises what is written to it: min(w, IBUF_CAP) (R30). -/
def legalLen (cap : Nat) (w : Word) : Nat := min w.toNat cap

/-- A write to a register that holds plain data (R27 to R30). The read-only registers ignore it (R21). CMD is not
written here: its write runs a command (`runWord`). -/
def writeReg (r : Reg) (w : Word) (s : State) : State :=
  match r with
  | .argValue => { s with argValue := w }
  | .argCount => { s with argCount := w }
  | .argAux =>
    { s with argPrefix := w.extractLsb' 0 8, argNeg := w.getLsbD 8, argDp := w.extractLsb' 16 8 }
  | .ibufLen => { s with ibufLen := legalLen s.ibufCap w }
  | .cmd => s
  | .status => s
  | .resValue => s
  | .resLen => s
  | .resAux => s
  | .outLen => s
  | .outData => s

/-- A command word that R74 rejects: ILLEGAL, unless the unit is faulted, which comes first (R205, R206). -/
def illegalCommand (s : State) : State := if s.fault then raise .faulted s else raise .illegal s

/-- A write to CMD (R22): the word is stored, and in the same step its command runs (R55). -/
def runWord (w : Word) (s : State) : Host.Outcome State Fault Refusal :=
  match decode w with
  | .ok i => exec i { s with cmd := w }
  | .error _ => .next (illegalCommand { s with cmd := w })

/-- A write to a location. -/
def writeLocation (l : Location) (v : Word) (s : State) : Host.Outcome State Fault Refusal :=
  match l with
  | .reg .cmd => runWord v s
  | .reg r => .next (writeReg r v s)
  | .ibuf a => .next { s with ibuf := Memory.write s.ibuf a (v.setWidth 8) }

/-- Reset (R230, R231): every register to its reset value and OUT emptied. What the host will do and what it has read
are not the ZCU's, and stay (log entry 2); so does the parameter IBUF_CAP (log entry 7). -/
def platformReset (s : State) : State :=
  { State.resetWith s.ibufCap with hostQueue := s.hostQueue, hostReads := s.hostReads }

/-- One host access, or reset. An access that R51 refuses has no step (log entry 4). -/
def hostStep (op : HostOp) (s : State) : Host.Outcome State Fault Refusal :=
  match op with
  | .reset => .next (platformReset s)
  | .read off n =>
    match locate s.ibufCap off n with
    | none => .fault .refusedAccess
    | some l => .next (readEffect l { s with hostReads := s.hostReads ++ [locationWord l s] })
  | .write off n v =>
    match locate s.ibufCap off n with
    | none => .fault .refusedAccess
    | some l => writeLocation l v s

/-- One step of the machine: the next access of the queue. With none, the unit is idle and waits (R232). -/
def stepHost (s : State) : Host.Outcome State Fault Refusal :=
  match s.hostQueue with
  | [] => .next s
  | op :: rest => hostStep op { s with hostQueue := rest }

/-- A command word put first in the host's queue, as a write to CMD. -/
def queueCommand (w : Word) (s : State) : State :=
  { s with hostQueue := .write Reg.cmd.offset 8 w :: s.hostQueue }

/-- The window offset of a host address, if the address lies in the window at ZCU_BASE (R50). -/
def windowOffset (addr : Nat) : Option (BitVec 8) :=
  if Config.zcuBase ≤ addr ∧ addr < Config.zcuBase + 256 then some (BitVec.ofNat 8 (addr - Config.zcuBase)) else none

/-- `MemRead(addr, n)` of R50 as an access of this unit. -/
def memRead (addr n : Nat) : Option HostOp := (windowOffset addr).map (fun off => .read off n)

/-- `MemWrite(addr, n, v)` of R50 as an access of this unit. -/
def memWrite (addr n : Nat) (v : Word) : Option HostOp := (windowOffset addr).map (fun off => .write off n v)

/-- R76: `set <REG>, <v>`. -/
def hostSet (r : Reg) (v : Word) : List HostOp := [.write r.offset 8 v]

/-- R76: `set ARG_AUX, PREFIX=<p> NEG=<n> DP=<d>`. -/
def hostSetAux (p : Byte) (neg : Bool) (d : Byte) : List HostOp :=
  hostSet .argAux (p.setWidth 64 ||| bitAt 8 neg ||| d.setWidth 64 <<< 16)

/-- The byte writes of `load`, from IBUF[i] on. -/
def hostLoadFrom (i : Nat) : List Byte → List HostOp
  | [] => []
  | b :: rest => .write (BitVec.ofNat 8 (Config.ibufBase + i)) 1 (b.setWidth 64) :: hostLoadFrom (i + 1) rest

/-- R76: `load [b0, ..., bk]`. -/
def hostLoad (bytes : List Byte) : List HostOp :=
  hostLoadFrom 0 bytes ++ hostSet .ibufLen (BitVec.ofNat 64 bytes.length)

/-- R76: `cmd <command>`. -/
def hostCmd (i : Instr) : List HostOp := [.write Reg.cmd.offset 8 (encode i)]

/-- R76: `get <REG>`. -/
def hostGet (r : Reg) : List HostOp := [.read r.offset 8]

/-- R76: `drain`, for a host that reads OUT_DATA `n` times. The host stops at the first 0x100, so it reads once more
than OUT holds bytes. -/
def hostDrain (n : Nat) : List HostOp := List.replicate n (.read Reg.outData.offset 8)

end Sys2Proof.Machine
end

