-- ==== Sys2Proof/Machine/Step.lean ====
section
/-! DEFINITION. One step of the machine, and a command placed where the next step takes it from. -/

namespace Sys2Proof.Machine

/-- One step: the next host access or reset (R55, R59, R230), or waiting where there is none (R232). -/
def step (s : State) : Host.Outcome State Fault Refusal := stepHost s

/-- `s` with a CMD write of the word `w` as the host's next access, so that the next step runs it. A command word is 64
bits, whatever a row's own bits are. Log entry 3. -/
def State.withFetchWord (s : State) (_nbits w : Nat) : State := queueCommand (BitVec.ofNat 64 w) s

end Sys2Proof.Machine
end

