-- ==== Sys2Proof/Safety.lean ====
section
/-! DEFINITION. What counts as a good state and a legal access, and the spec's byte formats said in plain arithmetic,
apart from the machine's own functions: the terms the statements use. -/

namespace Sys2Proof.Machine

/-- STATUS is one that R24, R25, R26, R200, R202 and R205 allow: ERR is a code of R200, a command that committed left no
error, and FAULT is set exactly when the last command raised DPRANGE (6) or was refused as FAULTED (7). -/
def State.statusCoherent (s : State) : Bool :=
  decide (s.err.toNat ≤ 7) && (!s.accept || s.err == 0) && (s.fault == (s.err == 6 || s.err == 7))

/-- IBUF_CAP is at least R7's minimum and fits the window (log entry 7), and IBUF_LEN is at most IBUF_CAP (R30). -/
def State.sizesLegal (s : State) : Bool :=
  decide (Config.ibufCapMin ≤ s.ibufCap) && decide (s.ibufCap ≤ Config.ibufCapMax) && decide (s.ibufLen ≤ s.ibufCap)

/-- The invariant of the machine: IBUF's sizes are legal, IBUF is in canonical form (the model's own form, log entry 9),
and STATUS is coherent. -/
def State.good (s : State) : Bool := s.sizesLegal && Memory.wf s.ibufCap s.ibuf && s.statusCoherent

end Sys2Proof.Machine

namespace Sys2Proof.Spec

open Sys2Proof.Machine

/-- The legal accesses of R51 in a unit of IBUF_CAP = `cap`: 8 bytes at 0x00, 0x08, …, 0x50, or one byte of IBUF. -/
def legalAccess (cap off n : Nat) : Prop :=
  (n = 8 ∧ off % 8 = 0 ∧ off ≤ 0x50) ∨ (n = 1 ∧ 0x80 ≤ off ∧ off < 0x80 + cap)

/-- The value a register reads as (R20, R22, R23, R27 to R34), as a sum over its fields; the bits of no field are 0. -/
def registerValue (r : Reg) (s : State) : Nat :=
  match r with
  | .cmd => s.cmd.toNat
  | .status => s.accept.toNat + 2 ^ 4 * s.err.toNat + 2 ^ 8 * s.fault.toNat
  | .argValue => s.argValue.toNat
  | .argCount => s.argCount.toNat
  | .argAux => s.argPrefix.toNat + 2 ^ 8 * s.argNeg.toNat + 2 ^ 16 * s.argDp.toNat
  | .ibufLen => s.ibufLen
  | .resValue => s.resValue.toNat
  | .resLen => s.resLen.toNat
  | .resAux => s.resPrefix.toNat + 2 ^ 8 * s.resNeg.toNat + 2 ^ 16 * s.resDp.toNat
  | .outLen => s.out.length
  | .outData => match s.out with
    | [] => 0x100
    | b :: _ => b.toNat

/-- A byte of a given number. -/
def byteOf (n : Nat) : Byte := BitVec.ofNat 8 n

/-- The base-128 digits of a value, least significant first; 0 has the one digit 0. -/
def base128 (v : Nat) : List Nat := if v = 0 then [0] else Nat.digits 128 v

/-- The LEB chunk sequence (R82, R101): every base-128 digit a byte, all but the last with 128 added. -/
def lebBytes (v : Nat) : List Byte :=
  (base128 v).dropLast.map (fun c => byteOf (c + 128)) ++ [byteOf ((base128 v).getLastD 0)]

/-- `lebLen(v)` (R101): max(1, ceil(bitlength(v) / 7)). -/
def lebLen (v : Nat) : Nat := max 1 ((Nat.size v + 6) / 7)

/-- A byte's number with its r low bits cleared. -/
def keep (r p : Nat) : Nat := p / 2 ^ r * 2 ^ r

/-- The first byte of r ∈ {4, 5, 6} and what follows it (R100): r − 1 data bits, then the flag at bit r − 1. -/
def sharedBytes (v r p : Nat) : List Byte :=
  if v < 2 ^ (r - 1) then [byteOf (keep r p + v)]
  else byteOf (keep r p + 2 ^ (r - 1) + v % 2 ^ (r - 1)) :: lebBytes (v / 2 ^ (r - 1))

/-- The VLE encoding of v with r reserved bits under the prefix p (R100 to R104). -/
def vleBytes (v : Nat) (r : Reserved) (p : Nat) : List Byte :=
  match r with
  | .r0 => lebBytes v
  | .r1 => byteOf (keep 1 p + v % 2) :: lebBytes (v / 2)
  | .r4 => sharedBytes v 4 p
  | .r5 => sharedBytes v 5 p
  | .r6 => sharedBytes v 6 p

/-- The encoding of a run of spaces (R131). -/
def spaceBytes (n : Nat) : List Byte :=
  if n = 1 then [0x20]
  else List.replicate (n / 63) 0xBF ++ if n % 63 = 0 then [] else [byteOf (128 + n % 63)]

/-- The operands a Mode can represent (R153): no sign in UI and UD, no decimal places in UI and SI. -/
def representable (m : Mode) (neg : Bool) (dp : Nat) : Prop :=
  match m with
  | .ui => neg = false ∧ dp = 0
  | .si => dp = 0
  | .ud => neg = false
  | .sd => True

/-- Where the numeric encoder declines (R152). -/
def declined (m : Mode) (v : Nat) (neg : Bool) (dp : Nat) : Prop :=
  match m with
  | .ui => v < 10 ∨ (31 < v ∧ v < 100)
  | .si => neg = false ∧ dp = 0 ∧ v < 100
  | .ud => dp = 0 ∧ v < 100
  | .sd => dp = 0 ∧ v < 100

/-- The token of a numeric payload (R83 to R88, R151, R154). -/
def tokenBytes (m : Mode) (v : Nat) (neg : Bool) (dp : Nat) : List Byte :=
  match m with
  | .ui => vleBytes v .r6 0xC0
  | .si => vleBytes v .r5 (0xC0 + 2 ^ 5 * neg.toNat)
  | .ud => if dp = 0 then vleBytes v .r4 0xC0 else vleBytes v .r1 (0xC0 + 2 ^ 5 + 2 * dp)
  | .sd =>
    if dp = 0 then vleBytes v .r4 (0xC0 + 2 ^ 5 * neg.toNat)
    else byteOf (0xC0 + 2 ^ 5 * neg.toNat + 2 ^ 4 + dp) :: vleBytes v .r0 0

/-- ASCII of a list of decimal digits (R167). -/
def ascii (ds : List Nat) : List Byte := ds.map (fun d => byteOf (0x30 + d))

/-- The number a list of decimal digits reads as, most significant first. -/
def decimalValue (ds : List Nat) : Nat := ds.foldl (fun n d => 10 * n + d) 0

/-- The decimal digits of v, most significant first; 0 has the one digit 0 (R167). -/
def decimalDigits (v : Nat) : List Nat := if v = 0 then [0] else (Nat.digits 10 v).reverse

/-- The digits with zeros put before them until there are more than dp of them. -/
def paddedDigits (v dp : Nat) : List Nat :=
  List.replicate (dp + 1 - (decimalDigits v).length) 0 ++ decimalDigits v

/-- The text of a number (R167): the padded digits with '.' before the last dp of them, and '-' before it all. -/
def text (v : Nat) (neg : Bool) (dp : Nat) : List Byte :=
  let ds := paddedDigits v dp
  let whole := ds.take (ds.length - dp)
  let fraction := ds.drop (ds.length - dp)
  (if neg then [0x2D] else []) ++ ascii whole ++ (if dp = 0 then [] else 0x2E :: ascii fraction)

/-- The text of a sign, the digits before the point and those after it (R170). -/
def numberText (neg : Bool) (whole fraction : List Nat) : List Byte :=
  (if neg then [0x2D] else []) ++ ascii whole ++ (if fraction = [] then [] else 0x2E :: ascii fraction)

/-- The chunk of a continuation byte, in its place: byte `i` of the input, at bit offset `off`. -/
def chunkAt (s : State) (i off : Nat) : Nat := (ibufByte s i).toNat % 128 * 2 ^ off

/-- The byte at `pos + k` is one that R108 goes past its checks with: it starts below bit 64, it is inside IBUF_LEN,
and its chunk sets no bit at 64 or above. -/
abbrev chunkFits (s : State) (pos d k : Nat) : Prop :=
  d + 7 * k < 64 ∧ pos + k < s.ibufLen ∧ chunkAt s (pos + k) (d + 7 * k) < 2 ^ 64

/-- `n` continuation bytes from `pos` on, the first at bit offset d, are a whole LEB chunk sequence (R82, R108). -/
abbrev LebRun (s : State) (pos d n : Nat) : Prop :=
  0 < n ∧ ∀ k, k < n → chunkFits s pos d k ∧ ((ibufByte s (pos + k)).getLsbD 7 = true ↔ k + 1 < n)

/-- What those bytes add up to. -/
def lebValue (s : State) (pos d n : Nat) : Nat :=
  ((List.range n).map (fun k => chunkAt s (pos + k) (d + 7 * k))).sum

/-- `n` bytes from `base` on are a whole VLE sequence for r ∈ {4, 5, 6} (R100, R111). -/
abbrev SharedRun (s : State) (base r n : Nat) : Prop :=
  base < s.ibufLen ∧
    if (ibufByte s base).getLsbD (r - 1) = true then 1 < n ∧ LebRun s (base + 1) (r - 1) (n - 1) else n = 1

/-- `n` bytes from `base` on are a whole VLE sequence with r reserved bits (R100 to R103, R111). -/
def VleRun (s : State) (base : Nat) (r : Reserved) (n : Nat) : Prop :=
  match r with
  | .r0 => LebRun s base 0 n
  | .r1 => base < s.ibufLen ∧ 1 < n ∧ LebRun s (base + 1) 1 (n - 1)
  | .r4 => SharedRun s base 4 n
  | .r5 => SharedRun s base 5 n
  | .r6 => SharedRun s base 6 n

/-- The data bits of a shared first byte: r − 1 of them, but one for r = 1 (R100). -/
def dataBits (r : Reserved) : Nat :=
  match r with
  | .r0 => 0
  | .r1 => 1
  | .r4 => 3
  | .r5 => 4
  | .r6 => 5

/-- The value of a VLE sequence of `n` bytes (R100, R111). -/
def vleValue (s : State) (base : Nat) (r : Reserved) (n : Nat) : Nat :=
  match r with
  | .r0 => lebValue s base 0 n
  | _ => (ibufByte s base).toNat % 2 ^ dataBits r + lebValue s (base + 1) (dataBits r) (n - 1)

/-- The loop of R108 stops at byte `k` with the error code `e`, each byte before it having been read, in range and
flagged: OVERLONG (3) for the offset, then TRUNC (2) for the read, then OVERLONG for the chunk (R206). -/
def LebStops (s : State) (pos d k : Nat) (e : BitVec 4) : Prop :=
  (∀ j, j < k → chunkFits s pos d j ∧ (ibufByte s (pos + j)).getLsbD 7 = true) ∧
    ((64 ≤ d + 7 * k ∧ e = 3) ∨
     (d + 7 * k < 64 ∧ s.ibufLen ≤ pos + k ∧ e = 2) ∨
     (d + 7 * k < 64 ∧ pos + k < s.ibufLen ∧ 2 ^ 64 ≤ chunkAt s (pos + k) (d + 7 * k) ∧ e = 3))

/-- Reading a VLE sequence with r reserved bits from `base` on stops with the error code `e`: at the shared first byte, or at
continuation byte `k` (R111, R206). -/
def VleStops (s : State) (base : Nat) (r : Reserved) (k : Nat) (e : BitVec 4) : Prop :=
  match r with
  | .r0 => LebStops s base 0 k e
  | .r1 => (s.ibufLen ≤ base ∧ e = 2) ∨ (base < s.ibufLen ∧ LebStops s (base + 1) 1 k e)
  | _ => (s.ibufLen ≤ base ∧ e = 2) ∨
      (base < s.ibufLen ∧ (ibufByte s base).getLsbD (dataBits r) = true ∧ LebStops s (base + 1) (dataBits r) k e)

/-- The r, the start of the magnitude, the sign and the decimal places that a lead byte of number `b` says (R83 to R88,
R151). -/
def layout (m : Mode) (b : Nat) : Reserved × Nat × Bool × Nat :=
  match m with
  | .ui => (.r6, 0, false, 0)
  | .si => (.r5, 0, b.testBit 5, 0)
  | .ud => if b.testBit 5 then (.r1, 0, false, b / 2 % 16) else (.r4, 0, false, 0)
  | .sd => if b.testBit 4 then (.r0, 1, b.testBit 5, b % 16) else (.r4, 0, b.testBit 5, 0)

/-- Byte 0 can be read and is a numeric lead byte (R80). -/
abbrev leadByte (s : State) : Prop := 0 < s.ibufLen ∧ (ibufByte s 0).toNat / 64 = 3

/-- The machine after a command committed (R11, R24, R32 to R34): its output at OUT's tail, every result register
written, STATUS saying so, and nothing else changed. -/
def committed (s : State) (emitted : List Byte) (value len : Nat) (pre : Nat) (neg : Bool) (dp : Nat) : State :=
  { s with
    out := s.out ++ emitted
    resValue := BitVec.ofNat 64 value
    resLen := BitVec.ofNat 64 len
    resPrefix := byteOf pre
    resNeg := neg
    resDp := BitVec.ofNat 4 dp
    accept := true
    err := 0 }

end Sys2Proof.Spec
end

