-- ==== Sys2Proof/Certificates/Slice0/Obligations.lean ====
section
/-! DEFINITION. The statements about the ZCU, for the provers. Each docstring names the rules of spec/ behind it, and the log
entry behind a clause that is the model's choice. Throughout, what the host does next and what it has read are the
model's fields hostQueue and hostReads (DESIGN CHOICE, log entry 1), and IBUF_CAP is the parameter held in the field
ibufCap (DESIGN CHOICE, log entry 7), so that a statement about every state is one about every capacity. -/

open Sys2Proof Sys2Proof.Machine

/-! ### Command words -/

/-- R70 to R76: a word decodes to a command exactly when it is that command's word, so every command has one word and
every decoded word one command. -/
def Obligations.DecodeEncodeAgree : Prop :=
  ∀ (w : Word) (i : Instr), decode w = .ok i ↔ i.wellFormed = true ∧ w = encode i

/-- R71 to R74: the legal words are the 20 of the opcode table. -/
def Obligations.LegalWordsAreTheTable : Prop :=
  ∀ w : Word, legal w = true ↔ w.toNat ∈
    [0x001, 0x011, 0x041, 0x051, 0x061, 0x002, 0x012, 0x042, 0x052, 0x062, 0x003, 0x004,
     0x005, 0x105, 0x205, 0x305, 0x006, 0x106, 0x206, 0x306]

/-- R70 to R73: words written out bit by bit from the fields decode to their commands. -/
def Obligations.WrittenWordsDecode : Prop :=
  decode 0b00_0_110_0001 = .ok .vleEncR6 ∧ decode 0b00_0_001_0010 = .ok .vleDecR1 ∧
    decode 0b00_0_000_0011 = .ok .spcEnc ∧ decode 0b00_0_000_0100 = .ok .spcDec ∧
    decode 0b01_0_000_0101 = .ok .numEncSi ∧ decode 0b10_0_000_0110 = .ok .numDecUd

/-- R22, R55: a write to CMD of a word that decodes stores the word and runs that command, in the one step. -/
def Obligations.StepRunsDecodedCommand : Prop :=
  ∀ (s : State) (w : Word) (i : Instr) (rest : List HostOp),
    s.hostQueue = .write 0x00 8 w :: rest → decode w = .ok i →
    step s = exec i { s with hostQueue := rest, cmd := w }

/-- R74: an illegal word changes nothing but CMD and STATUS, which reports ILLEGAL (1) or, where the unit is faulted,
FAULTED (7); a legal word is never reported as ILLEGAL. -/
def Obligations.IllegalWordIsReported : Prop :=
  ∀ (s : State) (w : Word) (rest : List HostOp), s.hostQueue = .write 0x00 8 w :: rest →
    (legal w = false →
      step s = .next { s with
        hostQueue := rest, cmd := w, accept := false, err := if s.fault then 7 else 1 }) ∧
    (legal w = true → ∀ t, step s = .next t → t.err ≠ 1)

/-- R205: while FAULT is set any word written to CMD is refused with FAULTED (7) and changes nothing else; every other
host access but the reading of STATUS itself does just what it does when FAULT is clear. -/
def Obligations.FaultedUnitRefusesCommands : Prop :=
  (∀ (s : State) (w : Word) (rest : List HostOp),
    s.fault = true → s.hostQueue = .write 0x00 8 w :: rest →
    step s = .next { s with hostQueue := rest, cmd := w, accept := false, err := 7 }) ∧
  (∀ (s t : State) (off : BitVec 8) (n : Nat) (v : Word), off ≠ 0x00 →
    hostStep (.write off n v) { s with fault := false } = .next t →
    hostStep (.write off n v) { s with fault := true } = .next { t with fault := true }) ∧
  (∀ (s t : State) (off : BitVec 8) (n : Nat), off ≠ 0x08 →
    hostStep (.read off n) { s with fault := false } = .next t →
    hostStep (.read off n) { s with fault := true } = .next { t with fault := true })

/-! ### The whole machine -/

/-- R231: what reset leaves, field by field, whatever came before. -/
def Obligations.ResetLeavesResetValues : Prop :=
  ∀ (s : State) (rest : List HostOp), s.hostQueue = .reset :: rest →
    ∃ t, step s = .next t ∧
      t.cmd = 0 ∧ t.accept = false ∧ t.err = 0 ∧ t.fault = false ∧
      t.argValue = 0 ∧ t.argCount = 0 ∧ t.argPrefix = 0 ∧ t.argNeg = false ∧ t.argDp = 0 ∧
      (∀ i, ibufByte t i = 0) ∧ t.ibufLen = 0 ∧
      t.resValue = 0 ∧ t.resLen = 0 ∧ t.resPrefix = 0 ∧ t.resNeg = false ∧ t.resDp = 0 ∧
      t.out = [] ∧ regWord .outLen t = 0 ∧ regWord .outData t = 0x100

/-- The state after reset is good at every legal capacity, and State.reset is the one of R7's 16 bytes. R231, R23, R24 and
R30 give STATUS and IBUF_LEN ≤ IBUF_CAP, R7 the least capacity. The MODEL'S CHOICE in State.good: that IBUF is a
canonical list (DESIGN CHOICE, log entry 9), and that the greatest capacity is 128 (DEDUCED, log entry 7). -/
def Obligations.ResetStateIsGood : Prop :=
  (∀ cap, 11 ≤ cap → cap ≤ 128 → (State.resetWith cap).good = true) ∧ State.reset = State.resetWith 16

/-- Every step keeps a good state good. R24 to R26, R200, R202, R205: STATUS stays coherent, ERR a code of R200, no error
beside ACCEPT, and FAULT set exactly while ERR is DPRANGE or FAULTED; R30: IBUF_LEN stays at most IBUF_CAP. The MODEL'S
CHOICE: that IBUF stays a canonical list (DESIGN CHOICE, log entry 9; no rule speaks of such a form), and that IBUF_CAP
stays between 11 and 128 as a field of State (DESIGN CHOICE and DEDUCED, log entry 7). -/
def Obligations.StepKeepsGood : Prop :=
  ∀ s t : State, s.good = true → step s = .next t → t.good = true

/-- R26, R202, R205: over any run without a reset, FAULT stays set, the result registers stay as they are, and OUT only
loses bytes from its head. -/
def Obligations.FaultLastsUntilReset : Prop :=
  ∀ (k : Nat) (s t : State), s.fault = true → HostOp.reset ∉ s.hostQueue.take k →
    Host.Core.run core k s = .next t →
    t.fault = true ∧ t.resValue = s.resValue ∧ t.resLen = s.resLen ∧ t.resPrefix = s.resPrefix ∧
      t.resNeg = s.resNeg ∧ t.resDp = s.resDp ∧ t.out <:+ s.out

/-- R26, R200, R202: the only step that sets FAULT is a NUM.ENC with a decimal-place count above 15, and it reports
DPRANGE (6). -/
def Obligations.FaultComesOnlyFromDpRange : Prop :=
  ∀ s t : State, s.fault = false → step s = .next t → t.fault = true →
    ∃ (w : Word) (m : Mode) (rest : List HostOp),
      s.hostQueue = .write 0x00 8 w :: rest ∧ decode w = .ok (.numEnc m) ∧ 15 < s.argDp.toNat ∧ t.err = 6

/-- R204: after a command that raised (or declined) the state is the one before the CMD write but for CMD and
STATUS. -/
def Obligations.FailedCommandChangesOnlyStatus : Prop :=
  ∀ (s t : State) (w : Word) (rest : List HostOp),
    s.hostQueue = .write 0x00 8 w :: rest → step s = .next t → t.accept = false →
    t = { s with hostQueue := rest, cmd := w, accept := false, err := t.err, fault := t.fault }

/-- R27 to R31: no command writes CMD, an argument register, IBUF, IBUF_LEN or the host's side, and to OUT it only
appends. -/
def Obligations.CommandsNeverWriteOperands : Prop :=
  ∀ (i : Instr) (s t : State), exec i s = .next t →
    t.cmd = s.cmd ∧ t.argValue = s.argValue ∧ t.argCount = s.argCount ∧ t.argPrefix = s.argPrefix ∧
      t.argNeg = s.argNeg ∧ t.argDp = s.argDp ∧ t.ibuf = s.ibuf ∧ t.ibufLen = s.ibufLen ∧
      t.hostQueue = s.hostQueue ∧ t.hostReads = s.hostReads ∧ s.out <+: t.out

/-- R24: a command that committed reports no error, and the pair (ACCEPT, ERR) = (0, 0) means exactly that a NUM.ENC
declined. -/
def Obligations.ZeroStatusPairMeansDeclined : Prop :=
  ∀ (i : Instr) (s t : State), exec i s = .next t →
    (t.accept = true → t.err = 0) ∧
    ((t.accept = false ∧ t.err = 0) ↔
      s.fault = false ∧ ∃ m, i = .numEnc m ∧ s.argDp.toNat ≤ 15 ∧
        Spec.representable m s.argNeg s.argDp.toNat ∧ Spec.declined m s.argValue.toNat s.argNeg s.argDp.toNat)

/-- R55: every word written to CMD runs to an end in its one step. -/
def Obligations.EveryCommandWordEnds : Prop :=
  ∀ (s : State) (w : Word), ∃ t, hostStep (.write 0x00 8 w) s = .next t

/-- R232, as the model reads "it waits for a CMD write" (log entry 3): with no access coming, a step changes nothing. -/
def Obligations.IdleUnitWaits : Prop :=
  ∀ s : State, s.hostQueue = [] → step s = .next s

/-! ### The register window -/

/-- R50: the host addresses of the window are ZCU_BASE to ZCU_BASE + 255, each an offset (offsets in the accesses:
DESIGN CHOICE, log entry 8). -/
def Obligations.WindowIsAtZcuBase : Prop :=
  (∀ off : BitVec 8, windowOffset (Config.zcuBase + off.toNat) = some off) ∧
  (∀ addr : Nat, addr < Config.zcuBase ∨ Config.zcuBase + 256 ≤ addr → windowOffset addr = none)

/-- R51: the accesses without a step are exactly those that are neither a whole 64-bit register nor one byte of IBUF.
That the stop is the fault refusedAccess is the model's reading (DEDUCED, log entry 4). -/
def Obligations.RefusedAccessesAreTheIllegalOnes : Prop :=
  ∀ (s : State) (off : BitVec 8) (n : Nat) (v : Word),
    (hostStep (.read off n) s = .fault .refusedAccess ↔ ¬ Spec.legalAccess s.ibufCap off.toNat n) ∧
    (hostStep (.write off n v) s = .fault .refusedAccess ↔ ¬ Spec.legalAccess s.ibufCap off.toNat n)

/-- R20, R22, R23, R27 to R34: a read of a register returns the sum of its fields in their places, reserved bits 0, and
changes nothing but that OUT_DATA loses the byte it returned. OUT_LEN is said only where 64 bits hold it (log
entry 5), IBUF_LEN only in a good state, which every step keeps. -/
def Obligations.RegisterReadReturnsItsFields : Prop :=
  ∀ (s : State) (r : Reg) (rest : List HostOp),
    s.hostQueue = .read r.offset 8 :: rest → (r = .outLen → s.out.length < 2 ^ 64) →
    (r = .ibufLen → s.good = true) →
    ∃ v : Word, v.toNat = Spec.registerValue r s ∧
      step s = .next { s with
        hostQueue := rest
        hostReads := s.hostReads ++ [v]
        out := if r = .outData then s.out.tail else s.out }

/-- R31, R76: draining reads the bytes of OUT in order, then 0x100, and leaves OUT empty. -/
def Obligations.DrainReturnsOutInOrder : Prop :=
  ∀ (s : State) (rest : List HostOp), s.hostQueue = hostDrain (s.out.length + 1) ++ rest →
    Host.Core.run core (s.out.length + 1) s = .next { s with
      hostQueue := rest
      out := []
      hostReads := s.hostReads ++ s.out.map (fun b => b.setWidth 64) ++ [0x100] }

/-- R21: a write to a read-only register changes nothing; what is written to ARG_AUX reads back in its fields only; no
write but CMD's, and no read but OUT_DATA's, changes a read-only register. -/
def Obligations.ReadOnlyRegistersIgnoreWrites : Prop :=
  (∀ (s : State) (r : Reg) (w : Word) (rest : List HostOp),
    r ∈ [Reg.status, .resValue, .resLen, .resAux, .outLen, .outData] →
    s.hostQueue = .write r.offset 8 w :: rest → step s = .next { s with hostQueue := rest }) ∧
  (∀ (s : State) (w : Word) (rest : List HostOp),
    s.hostQueue = .write 0x20 8 w :: .read 0x20 8 :: rest →
    ∃ t, Host.Core.run core 2 s = .next t ∧ t.hostReads = s.hostReads ++ [w &&& 0xFF01FF]) ∧
  (∀ (s t : State) (op : HostOp), op ≠ .reset → (∀ n w, op ≠ .write 0x00 n w) → (∀ n, op ≠ .read 0x50 n) →
    hostStep op s = .next t →
    t.accept = s.accept ∧ t.err = s.err ∧ t.fault = s.fault ∧ t.resValue = s.resValue ∧ t.resLen = s.resLen ∧
      t.resPrefix = s.resPrefix ∧ t.resNeg = s.resNeg ∧ t.resDp = s.resDp ∧ t.out = s.out)

/-- R27 to R30: a write to an argument register stores its fields, a write to IBUF_LEN stores min(w, IBUF_CAP), and
nothing else changes. -/
def Obligations.ArgumentWritesStoreTheirValue : Prop :=
  ∀ (s : State) (w : Word) (rest : List HostOp),
    (s.hostQueue = .write 0x10 8 w :: rest → step s = .next { s with hostQueue := rest, argValue := w }) ∧
    (s.hostQueue = .write 0x18 8 w :: rest → step s = .next { s with hostQueue := rest, argCount := w }) ∧
    (s.hostQueue = .write 0x20 8 w :: rest → step s = .next { s with
      hostQueue := rest
      argPrefix := Spec.byteOf w.toNat
      argNeg := w.toNat.testBit 8
      argDp := Spec.byteOf (w.toNat / 2 ^ 16) }) ∧
    (s.hostQueue = .write 0x28 8 w :: rest →
      step s = .next { s with hostQueue := rest, ibufLen := min w.toNat s.ibufCap })

/-- R30, R51: a one-byte write to IBUF[i] stores that byte and no other and changes nothing else; a one-byte read returns
the byte and changes nothing. The MODEL'S CHOICE: that the write keeps IBUF a canonical list (DESIGN CHOICE, log
entry 9), that the written byte is bits 7:0 of the value and the value read is the byte zero-extended to 64 bits (DESIGN
CHOICE, log entry 10), and that a capacity is at most 128 (DEDUCED, log entry 7). -/
def Obligations.IbufAccessesReachOneByte : Prop :=
  ∀ (s : State) (i : Nat) (b : Byte) (rest : List HostOp), i < s.ibufCap → s.ibufCap ≤ 128 →
    (s.hostQueue = .write (BitVec.ofNat 8 (0x80 + i)) 1 (b.setWidth 64) :: rest →
      ∃ m, step s = .next { s with hostQueue := rest, ibuf := m } ∧
        (Memory.wf s.ibufCap s.ibuf = true → Memory.wf s.ibufCap m = true) ∧
        ∀ a, Memory.read m a = if a = 0x80 + i then b else Memory.read s.ibuf a) ∧
    (s.hostQueue = .read (BitVec.ofNat 8 (0x80 + i)) 1 :: rest →
      step s = .next { s with
        hostQueue := rest, hostReads := s.hostReads ++ [(Memory.read s.ibuf (0x80 + i)).setWidth 64] })

/-- The MODEL'S CHOICE (DESIGN CHOICE, log entry 9), its form of IBUF, loses nothing: canonical memories that read alike are
equal. -/
def Obligations.CanonicalMemoriesAreEqual : Prop :=
  ∀ (cap : Nat) (m m' : Memory), Memory.wf cap m = true → Memory.wf cap m' = true → (∀ a, Memory.read m a = Memory.read m' a) → m = m'

/-- R56: a read of anything but OUT_DATA changes nothing, and a write of anything but CMD, repeated with the same
value, changes nothing more. -/
def Obligations.PlainAccessesAreIdempotent : Prop :=
  (∀ (s t : State) (off : BitVec 8) (n : Nat), off ≠ 0x50 →
    hostStep (.read off n) s = .next t → t = { s with hostReads := t.hostReads }) ∧
  (∀ (s t : State) (off : BitVec 8) (n : Nat) (v : Word), off ≠ 0x00 →
    hostStep (.write off n v) s = .next t → hostStep (.write off n v) t = .next t)

/-- R76: `load` puts its bytes at the start of IBUF, sets IBUF_LEN to their number, and leaves the other bytes and
everything else alone. Each byte travels in bits 7:0 of its write (DESIGN CHOICE, log entry 10), and a capacity is at
most 128 (DEDUCED, log entry 7). -/
def Obligations.LoadPlacesItsBytes : Prop :=
  ∀ (s : State) (bytes : List Byte) (rest : List HostOp), bytes.length ≤ s.ibufCap → s.ibufCap ≤ 128 →
    s.hostQueue = hostLoad bytes ++ rest →
    ∃ t, Host.Core.run core (bytes.length + 1) s = .next t ∧
      t = { s with hostQueue := rest, ibuf := t.ibuf, ibufLen := t.ibufLen } ∧
      t.ibufLen = bytes.length ∧ ∀ i, ibufByte t i = bytes.getD i (ibufByte s i)

/-! ### The VLE engine -/

/-- R101: the LEB chunk sequence by its own equation, its length in both forms that the rule gives, and its two named
values. -/
def Obligations.LebIsItsChunkSequence : Prop :=
  (∀ v : Word, leb v =
    if v.toNat < 128 then [Spec.byteOf v.toNat] else Spec.byteOf (v.toNat % 128 + 128) :: leb (v >>> 7)) ∧
  (∀ v : Word, (leb v).length = Spec.lebLen v.toNat) ∧
  (∀ v : Nat, Spec.lebLen v = if v < 0x80 then 1 else 1 + Spec.lebLen (v / 2 ^ 7)) ∧
  leb 0 = [0x00] ∧ leb 0xFFFFFFFFFFFFFFFF = [0xFF, 0xFF, 0xFF, 0xFF, 0xFF, 0xFF, 0xFF, 0xFF, 0xFF, 0x01]

/-- R100 to R104: `VLE.ENC r=<n>` commits, for every value and prefix, with the base-128 encoding of ARG_VALUE under
the prefix at OUT's tail, its length in RES_LEN, and nothing else written but the other results (0) and STATUS. -/
def Obligations.VleEncCommits : Prop :=
  ∀ (r : Reserved) (s : State), s.fault = false →
    exec (.vleEnc r) s = .next
      (Spec.committed s (Spec.vleBytes s.argValue.toNat r s.argPrefix.toNat) 0
        (Spec.vleBytes s.argValue.toNat r s.argPrefix.toNat).length 0 false 0)

/-- R105: the encoded length. -/
def Obligations.VleEncodeLength : Prop :=
  ∀ (v : Word) (p : Byte),
    (vleEncode v .r0 p).length = Spec.lebLen v.toNat ∧
    (vleEncode v .r1 p).length = 1 + Spec.lebLen (v.toNat / 2) ∧
    (vleEncode v .r4 p).length = (if v.toNat < 2 ^ 3 then 1 else 1 + Spec.lebLen (v.toNat / 2 ^ 3)) ∧
    (vleEncode v .r5 p).length = (if v.toNat < 2 ^ 4 then 1 else 1 + Spec.lebLen (v.toNat / 2 ^ 4)) ∧
    (vleEncode v .r6 p).length = (if v.toNat < 2 ^ 5 then 1 else 1 + Spec.lebLen (v.toNat / 2 ^ 5))

/-- R106: the longest encoding for each r is 10 bytes, reached at 2^64 − 1, and the lengths at 18 nines. -/
def Obligations.VleLengthBounds : Prop :=
  (∀ (v : Word) (r : Reserved) (p : Byte), (vleEncode v r p).length ≤ 10) ∧
  (∀ (r : Reserved) (p : Byte), (vleEncode 0xFFFFFFFFFFFFFFFF r p).length = 10) ∧
  (∀ (r : Reserved) (p : Byte), (vleEncode 999999999999999999 r p).length =
    match r with
    | .r0 => 9
    | .r1 => 10
    | .r4 => 10
    | .r5 => 9
    | .r6 => 9)

/-- R107: an encoding is one byte long or ends in a non-zero chunk, but for r = 1 and a value below 2, which ends in
the 0 byte that R102 requires. -/
def Obligations.VleEncodeIsMinimal : Prop :=
  ∀ (v : Word) (r : Reserved) (p : Byte),
    if r = .r1 ∧ v.toNat < 2 then ∃ b, vleEncode v r p = [b, 0x00]
    else (vleEncode v r p).length = 1 ∨ ((vleEncode v r p).getLastD 0).toNat % 128 ≠ 0

/-- R108 to R111, R52: `VLE.DEC r=<n>` commits on every whole sequence at the start of the input, with its value, its
length and the prefix bits of its first byte, and writes nothing else but STATUS. -/
def Obligations.VleDecCommits : Prop :=
  ∀ (r : Reserved) (s : State) (n : Nat), s.fault = false → Spec.VleRun s 0 r n →
    exec (.vleDec r) s = .next
      (Spec.committed s [] (Spec.vleValue s 0 r n) n
        (if r = .r0 then 0 else Spec.keep r.count (ibufByte s 0).toNat) false 0)

/-- R108, R111, R203, R206: `VLE.DEC r=<n>` raises the error that its first failing byte meets, and changes only
STATUS. -/
def Obligations.VleDecRaises : Prop :=
  ∀ (r : Reserved) (s : State) (k : Nat) (e : BitVec 4), s.fault = false → Spec.VleStops s 0 r k e →
    exec (.vleDec r) s = .next { s with accept := false, err := e }

/-- R108, R110, R111, R203, R206: on every input `VLE.DEC r=<n>` does one of two things: the input begins with a whole
sequence, and the command commits with that sequence's value, length and prefix; or its reading stops at some byte,
and the command raises the error which that byte meets and changes only STATUS. -/
def Obligations.EveryVleInputDecodesOrStops : Prop :=
  ∀ (r : Reserved) (s : State), s.fault = false →
    (∃ n, Spec.VleRun s 0 r n ∧
      exec (.vleDec r) s = .next
        (Spec.committed s [] (Spec.vleValue s 0 r n) n
          (if r = .r0 then 0 else Spec.keep r.count (ibufByte s 0).toNat) false 0)) ∨
    ∃ k e, Spec.VleStops s 0 r k e ∧ exec (.vleDec r) s = .next { s with accept := false, err := e }

/-- R112: what vle_encode emits, followed by anything, decodes to the value and the number of its bytes, under every
prefix; and the command says so in its results. -/
def Obligations.VleRoundTrip : Prop :=
  ∀ (s : State) (r : Reserved) (v : Word) (p : Byte),
    (vleEncode v r p).length ≤ s.ibufLen →
    (∀ i (h : i < (vleEncode v r p).length), ibufByte s i = (vleEncode v r p)[i]) →
    vleDecode s 0 r = .ok (v, (vleEncode v r p).length) ∧
    (s.fault = false →
      exec (.vleDec r) s = .next
        (Spec.committed s [] v.toNat (vleEncode v r p).length
          (if r = .r0 then 0 else Spec.keep r.count p.toNat) false 0))

/-- R30, R52: no command reads IBUF at or past IBUF_LEN: other bytes there change nothing. -/
def Obligations.InputBeyondLengthIsNotRead : Prop :=
  ∀ (i : Instr) (s t : State) (m : Memory),
    (∀ k, k < s.ibufLen → Memory.read m (0x80 + k) = Memory.read s.ibuf (0x80 + k)) →
    exec i s = .next t → exec i { s with ibuf := m } = .next { t with ibuf := m }

/-- R110, R136, R165: a decode command that commits has read only the RES_LEN bytes it reports: other bytes after them,
and another IBUF_LEN that still holds them, change nothing. -/
def Obligations.BytesAfterTheTokenAreNotRead : Prop :=
  ∀ (i : Instr) (s t : State) (m : Memory) (len : Nat),
    ((∃ r, i = .vleDec r) ∨ i = .spcDec ∨ ∃ mode, i = .numDec mode) →
    exec i s = .next t → t.accept = true → t.resLen.toNat ≤ len →
    (∀ k, k < t.resLen.toNat → Memory.read m (0x80 + k) = Memory.read s.ibuf (0x80 + k)) →
    exec i { s with ibuf := m, ibufLen := len } = .next { t with ibuf := m, ibufLen := len }

/-! ### The space codec -/

/-- R131, R132: SPC.ENC commits for every count, with the run's bytes at OUT's tail and their number in RES_LEN. -/
def Obligations.SpcEncCommits : Prop :=
  ∀ s : State, s.fault = false →
    exec .spcEnc s = .next
      (Spec.committed s (Spec.spaceBytes s.argCount.toNat) 0 (Spec.spaceBytes s.argCount.toNat).length 0 false 0)

/-- R134: 0, 1 or ceil(N / 63) bytes. -/
def Obligations.SpaceEncodeLength : Prop :=
  ∀ n : Word, (spaceEncode n).length =
    if n.toNat = 0 then 0 else if n.toNat = 1 then 1 else (n.toNat + 62) / 63

/-- R135: one space is the literal; the tagged byte of count 1 stands only as the remainder of a run of 64 or more. -/
def Obligations.SingleSpaceIsLiteral : Prop :=
  spaceEncode 1 = [0x20] ∧
  ∀ n : Word, 0x81#8 ∈ spaceEncode n → 64 ≤ n.toNat ∧ n.toNat % 63 = 1 ∧ (spaceEncode n).getLast? = some 0x81 ∧
    (spaceEncode n).count 0x81 = 1

/-- R136, R137: SPC.DEC commits on a byte whose top bits are "10", with that many spaces at OUT's tail, be it none. -/
def Obligations.SpcDecCommits : Prop :=
  ∀ s : State, s.fault = false → 0 < s.ibufLen → (ibufByte s 0).toNat / 64 = 2 →
    exec .spcDec s = .next
      (Spec.committed s (List.replicate ((ibufByte s 0).toNat % 64) 0x20) ((ibufByte s 0).toNat % 64) 1 0 false 0)

/-- R136, R200, R203: SPC.DEC raises TRUNC (2) without an input byte, and BADTAG (4) on a byte of another class; only
STATUS changes. -/
def Obligations.SpcDecRaises : Prop :=
  ∀ s : State, s.fault = false →
    (s.ibufLen = 0 → exec .spcDec s = .next { s with accept := false, err := 2 }) ∧
    (0 < s.ibufLen → (ibufByte s 0).toNat / 64 ≠ 2 →
      exec .spcDec s = .next { s with accept := false, err := 4 })

/-- What a host makes of one byte of a space run (R138): a literal byte it copies, any other it gives to SPC.DEC. -/
def Sys2Proof.Spec.expandByte (s : State) (b : Byte) : List Byte :=
  if b.toNat < 0x80 then [b]
  else
    match exec .spcDec { s with ibuf := Memory.write [] 0x80 b, ibufLen := 1, out := [] } with
    | .next t => t.out
    | .fault _ => []
    | .refused _ => []

/-- R138: the bytes of an encoded run, expanded one at a time, are exactly N spaces. -/
def Obligations.SpaceRoundTrip : Prop :=
  ∀ (s : State) (n : Word), s.fault = false →
    (spaceEncode n).flatMap (Spec.expandByte s) = List.replicate n.toNat 0x20

/-! ### The numeric codecs -/

/-- R151 to R160: NUM.ENC commits on operands that are in range, that the Mode represents and that it does not decline,
with the token at OUT's tail and its length in RES_LEN. -/
def Obligations.NumEncCommits : Prop :=
  ∀ (m : Mode) (s : State), s.fault = false → s.argDp.toNat ≤ 15 →
    Spec.representable m s.argNeg s.argDp.toNat → ¬ Spec.declined m s.argValue.toNat s.argNeg s.argDp.toNat →
    exec (.numEnc m) s = .next
      (Spec.committed s (Spec.tokenBytes m s.argValue.toNat s.argNeg s.argDp.toNat) 0
        (Spec.tokenBytes m s.argValue.toNat s.argNeg s.argDp.toNat).length 0 false 0)

/-- R152, R155: where the Mode declines, NUM.ENC writes ACCEPT 0 and ERR 0 and nothing else. -/
def Obligations.NumEncDeclines : Prop :=
  ∀ (m : Mode) (s : State), s.fault = false → s.argDp.toNat ≤ 15 →
    Spec.representable m s.argNeg s.argDp.toNat → Spec.declined m s.argValue.toNat s.argNeg s.argDp.toNat →
    exec (.numEnc m) s = .next { s with accept := false, err := 0 }

/-- R153: the operand checks in their order: a count above 15 raises DPRANGE (6) and sets FAULT, whatever the other
operands are; then operands the Mode cannot represent raise OPERAND (5). -/
def Obligations.NumEncChecksOperands : Prop :=
  ∀ (m : Mode) (s : State), s.fault = false →
    (15 < s.argDp.toNat → exec (.numEnc m) s = .next { s with accept := false, err := 6, fault := true }) ∧
    (s.argDp.toNat ≤ 15 → ¬ Spec.representable m s.argNeg s.argDp.toNat →
      exec (.numEnc m) s = .next { s with accept := false, err := 5 })

/-- R165 to R167: NUM.DEC commits on every whole token at the start of the input, with its text at OUT's tail and its
magnitude, length, sign and decimal places in the results. -/
def Obligations.NumDecCommits : Prop :=
  ∀ (m : Mode) (s : State) (r : Reserved) (base : Nat) (neg : Bool) (dp n : Nat),
    s.fault = false → Spec.leadByte s → Spec.layout m (ibufByte s 0).toNat = (r, base, neg, dp) →
    Spec.VleRun s base r n →
    exec (.numDec m) s = .next
      (Spec.committed s (Spec.text (Spec.vleValue s base r n) neg dp) (Spec.vleValue s base r n) (base + n) 0 neg dp)

/-- R165, R166, R203, R206: NUM.DEC raises TRUNC (2) without a first byte, then BADTAG (4) on one that is no numeric
lead byte, then what the magnitude's first failing byte meets; only STATUS changes. -/
def Obligations.NumDecRaises : Prop :=
  ∀ (m : Mode) (s : State), s.fault = false →
    (s.ibufLen = 0 → exec (.numDec m) s = .next { s with accept := false, err := 2 }) ∧
    (0 < s.ibufLen → (ibufByte s 0).toNat / 64 ≠ 3 →
      exec (.numDec m) s = .next { s with accept := false, err := 4 }) ∧
    (∀ (r : Reserved) (base : Nat) (neg : Bool) (dp k : Nat) (e : BitVec 4), Spec.leadByte s →
      Spec.layout m (ibufByte s 0).toNat = (r, base, neg, dp) → Spec.VleStops s base r k e →
      exec (.numDec m) s = .next { s with accept := false, err := e })

/-- R169: where NUM.ENC committed, its emitted bytes, followed by anything, are decoded by NUM.DEC of the same Mode to
the same magnitude, sign and decimal places, and all of them are consumed. -/
def Obligations.NumPayloadRoundTrip : Prop :=
  ∀ (m : Mode) (s t u : State) (token : List Byte),
    exec (.numEnc m) s = .next t → t.accept = true → t.out = s.out ++ token →
    u.fault = false → token.length ≤ u.ibufLen → (∀ i (h : i < token.length), ibufByte u i = token[i]) →
    ∃ x, exec (.numDec m) u = .next x ∧ x.accept = true ∧ x.resValue = s.argValue ∧ x.resNeg = s.argNeg ∧
      x.resDp.toNat = s.argDp.toNat ∧ x.resLen.toNat = token.length

/-- R170: the text `-? I (. F)?`, with I the digit 0 before a fraction or not beginning with 0, F at most 15 digits,
and the digits a 64-bit number, is what its payload renders as; and where NUM.ENC committed that payload, NUM.DEC of
the same Mode appends exactly this text to OUT. -/
def Obligations.TextRoundTrip : Prop :=
  ∀ (neg : Bool) (whole fraction : List Nat),
    (∀ d ∈ whole ++ fraction, d < 10) →
    ((whole = [0] ∧ fraction ≠ []) ∨ (whole ≠ [] ∧ whole.head? ≠ some 0)) →
    fraction.length ≤ 15 → Spec.decimalValue (whole ++ fraction) < 2 ^ 64 →
    render (BitVec.ofNat 64 (Spec.decimalValue (whole ++ fraction))) neg (BitVec.ofNat 4 fraction.length) =
      Spec.numberText neg whole fraction ∧
    ∀ (m : Mode) (s t u : State) (token : List Byte),
      s.argValue.toNat = Spec.decimalValue (whole ++ fraction) → s.argNeg = neg → s.argDp.toNat = fraction.length →
      exec (.numEnc m) s = .next t → t.accept = true → t.out = s.out ++ token →
      u.fault = false → token.length ≤ u.ibufLen → (∀ i (h : i < token.length), ibufByte u i = token[i]) →
      ∃ x, exec (.numDec m) u = .next x ∧ x.accept = true ∧ x.out = u.out ++ Spec.numberText neg whole fraction

/-- R171: a text is at most 22 bytes long; it is 22 exactly for a negative number of 20 digits with a '.'; and with
as many decimal places as digits it is at most 18. -/
def Obligations.TextIsShort : Prop :=
  ∀ (v : Word) (neg : Bool) (dp : BitVec 4),
    (render v neg dp).length ≤ 22 ∧
    ((render v neg dp).length = 22 ↔ neg = true ∧ 10 ^ 19 ≤ v.toNat ∧ 1 ≤ dp.toNat) ∧
    ((Spec.decimalDigits v.toNat).length ≤ dp.toNat → (render v neg dp).length ≤ 18)

/-- R172: a token is at most 11 bytes long, and at most 10 but in SD with decimal places; 11 is reached; IBUF holds
every token, with R7's 16 bytes and in every good state. -/
def Obligations.TokenIsShort : Prop :=
  (∀ (m : Mode) (v : Word) (neg : Bool) (dp : Byte),
    (numEncode m v neg dp).length ≤ (if m = .sd ∧ dp ≠ 0 then 11 else 10)) ∧
  (∀ (neg : Bool) (dp : Byte), dp ≠ 0 → (numEncode .sd 0xFFFFFFFFFFFFFFFF neg dp).length = 11) ∧
  11 ≤ State.reset.ibufCap ∧ ∀ s : State, s.good = true → 11 ≤ s.ibufCap

/-- R168: what NUM.DEC emits in UI and UD holds no '-' and the sign it reports is 0; in UI and SI it holds no '.' and
the decimal places it reports are 0. -/
def Obligations.SignAndPointFollowTheMode : Prop :=
  ∀ (m : Mode) (s t : State) (emitted : List Byte),
    exec (.numDec m) s = .next t → t.accept = true → t.out = s.out ++ emitted →
    (m = .ui ∨ m = .ud → 0x2D#8 ∉ emitted ∧ t.resNeg = false) ∧
    (m = .ui ∨ m = .si → 0x2E#8 ∉ emitted ∧ t.resDp = 0)

/-! ### The parameter IBUF_CAP -/

/-- R7, R30: IBUF_CAP is a parameter of the unit: no step, reset among them, changes it. The MODEL'S CHOICE is only to hold
it in a field of State (DESIGN CHOICE, log entry 7). -/
def Obligations.NoStepChangesIbufCap : Prop :=
  ∀ s t : State, step s = .next t → t.ibufCap = s.ibufCap
end

