-- ==== Sys2Proof/Laws/Memory.lean ====
section
/-! SUPPORT. IBUF's memory: a read after a write, and the canonical form. -/

namespace Sys2Proof.Machine

@[simp] theorem Memory.read_nil (a : Nat) : Memory.read [] a = 0 := rfl

@[simp] theorem Memory.read_cons (k : Nat) (b : Byte) (m : Memory) (a : Nat) :
    Memory.read ((k, b) :: m) a = if k = a then b else Memory.read m a := rfl

theorem Memory.read_filter_other (m : Memory) {a a' : Nat} (h : a' ≠ a) :
    Memory.read (m.filter (fun c => c.1 ≠ a)) a' = Memory.read m a' := by
  induction m with
  | nil => rfl
  | cons c m ih =>
    obtain ⟨k, b⟩ := c
    by_cases hk : k = a
    · subst hk; simpa [List.filter_cons, Ne.symm h] using ih
    · simp only [List.filter_cons, ne_eq, hk, not_false_eq_true, decide_true, if_true, Memory.read_cons]
      rw [← ih]

theorem Memory.read_filter_same (m : Memory) (a : Nat) :
    Memory.read (m.filter (fun c => c.1 ≠ a)) a = 0 := by
  induction m with
  | nil => rfl
  | cons c m ih =>
    obtain ⟨k, b⟩ := c
    by_cases hk : k = a
    · subst hk; simpa [List.filter_cons] using ih
    · simp only [List.filter_cons, ne_eq, hk, not_false_eq_true, decide_true, if_true, Memory.read_cons, if_false]
      exact ih

theorem Memory.read_insertCell_other (m : Memory) (a : Nat) (b : Byte) {a' : Nat} (h : a' ≠ a) :
    Memory.read (Memory.insertCell m (a, b)) a' = Memory.read m a' := by
  induction m with
  | nil => simp [Memory.insertCell, Ne.symm h]
  | cons c m ih =>
    obtain ⟨k, x⟩ := c
    by_cases hk : a < k
    · simp [Memory.insertCell, hk, Ne.symm h]
    · simp [Memory.insertCell, hk, ih]

theorem Memory.read_insertCell_same (m : Memory) (a : Nat) (b : Byte) (h : ∀ c ∈ m, c.1 ≠ a) :
    Memory.read (Memory.insertCell m (a, b)) a = b := by
  induction m with
  | nil => simp [Memory.insertCell]
  | cons c m ih =>
    obtain ⟨k, x⟩ := c
    have hk : k ≠ a := h (k, x) (by simp)
    by_cases hlt : a < k
    · simp [Memory.insertCell, hlt]
    · simp [Memory.insertCell, hlt, hk, ih (fun c hc => h c (by simp [hc]))]

/-- A write is seen at its own offset and nowhere else, whatever list the memory is. -/
theorem Memory.read_write (m : Memory) (a a' : Nat) (b : Byte) :
    Memory.read (Memory.write m a b) a' = if a' = a then b else Memory.read m a' := by
  unfold Memory.write
  by_cases hb : b = Memory.unlisted
  · subst hb
    by_cases ha : a' = a
    · subst ha; simpa [Memory.unlisted] using Memory.read_filter_same m a'
    · simpa [ha] using Memory.read_filter_other m ha
  · simp only [hb, if_false]
    by_cases ha : a' = a
    · subst ha
      simpa using Memory.read_insertCell_same _ a' b (fun c hc => by simpa using (List.mem_filter.1 hc).2)
    · simpa [ha, Memory.read_insertCell_other _ a b ha] using Memory.read_filter_other m ha

theorem Memory.wfFrom_mono {hi lo lo' : Nat} (h : lo' ≤ lo) (m : Memory) (hm : Memory.wfFrom hi lo m = true) :
    Memory.wfFrom hi lo' m = true := by
  cases m with
  | nil => rfl
  | cons c m =>
    simp only [Memory.wfFrom, Bool.and_eq_true, decide_eq_true_eq] at hm ⊢
    exact ⟨⟨⟨by omega, hm.1.1.2⟩, hm.1.2⟩, hm.2⟩

theorem Memory.wfFrom_filter (p : Host.Cell → Bool) (m : Memory) (hi lo : Nat) (hm : Memory.wfFrom hi lo m = true) :
    Memory.wfFrom hi lo (m.filter p) = true := by
  induction m generalizing lo with
  | nil => rfl
  | cons c m ih =>
    simp only [Memory.wfFrom, Bool.and_eq_true, decide_eq_true_eq] at hm
    by_cases hp : p c = true
    · simp only [List.filter_cons, hp, if_true, Memory.wfFrom, Bool.and_eq_true, decide_eq_true_eq]
      exact ⟨hm.1, ih _ hm.2⟩
    · simp only [List.filter_cons, hp]
      exact Memory.wfFrom_mono (by omega) _ (ih _ hm.2)

theorem Memory.wfFrom_insertCell (m : Memory) (a : Nat) (b : Byte) (hi lo : Nat) (hm : Memory.wfFrom hi lo m = true)
    (hlo : lo ≤ a) (ha : a < hi) (hb : b ≠ Memory.unlisted) (h : ∀ c ∈ m, c.1 ≠ a) :
    Memory.wfFrom hi lo (Memory.insertCell m (a, b)) = true := by
  induction m generalizing lo with
  | nil => simp [Memory.insertCell, Memory.wfFrom, hlo, ha, hb]
  | cons c m ih =>
    have hc : c.1 ≠ a := h c (by simp)
    simp only [Memory.wfFrom, Bool.and_eq_true, decide_eq_true_eq] at hm
    by_cases hlt : a < c.1
    · simp [Memory.insertCell, hlt, Memory.wfFrom, hlo, ha, hb, hm.1.1.2, hm.1.2, hm.2, Nat.succ_le_of_lt hlt]
    · simp only [Memory.insertCell, hlt, if_false, Memory.wfFrom, Bool.and_eq_true, decide_eq_true_eq]
      exact ⟨hm.1, ih _ hm.2 (by omega) (fun d hd => h d (by simp [hd]))⟩

/-- A write inside IBUF keeps the canonical form. -/
theorem Memory.wf_write (cap : Nat) (m : Memory) (a : Nat) (b : Byte) (hm : Memory.wf cap m = true) (hlo : Config.ibufBase ≤ a)
    (hhi : a < Config.ibufBase + cap) : Memory.wf cap (Memory.write m a b) = true := by
  unfold Memory.write
  have hf : Memory.wf cap (m.filter (fun c => c.1 ≠ a)) = true := Memory.wfFrom_filter _ _ _ _ hm
  by_cases hb : b = Memory.unlisted
  · simpa [hb] using hf
  · simp only [hb, if_false]
    exact Memory.wfFrom_insertCell _ _ _ _ _ hf hlo hhi hb (fun c hc => by simpa using (List.mem_filter.1 hc).2)

end Sys2Proof.Machine
end

