-- ==== Sys2Proof/Laws/State.lean ====
section
/-! SUPPORT. Every field of the state after each named update. -/

namespace Sys2Proof.Machine

@[simp] theorem commit_cmd (p : List Byte) (r : Results) (s : State) : (commit p r s).cmd = s.cmd := rfl
@[simp] theorem commit_accept (p : List Byte) (r : Results) (s : State) : (commit p r s).accept = true := rfl
@[simp] theorem commit_err (p : List Byte) (r : Results) (s : State) : (commit p r s).err = 0 := rfl
@[simp] theorem commit_fault (p : List Byte) (r : Results) (s : State) : (commit p r s).fault = s.fault := rfl
@[simp] theorem commit_argValue (p : List Byte) (r : Results) (s : State) : (commit p r s).argValue = s.argValue := rfl
@[simp] theorem commit_argCount (p : List Byte) (r : Results) (s : State) : (commit p r s).argCount = s.argCount := rfl
@[simp] theorem commit_argPrefix (p : List Byte) (r : Results) (s : State) : (commit p r s).argPrefix = s.argPrefix := rfl
@[simp] theorem commit_argNeg (p : List Byte) (r : Results) (s : State) : (commit p r s).argNeg = s.argNeg := rfl
@[simp] theorem commit_argDp (p : List Byte) (r : Results) (s : State) : (commit p r s).argDp = s.argDp := rfl
@[simp] theorem commit_ibuf (p : List Byte) (r : Results) (s : State) : (commit p r s).ibuf = s.ibuf := rfl
@[simp] theorem commit_ibufLen (p : List Byte) (r : Results) (s : State) : (commit p r s).ibufLen = s.ibufLen := rfl
@[simp] theorem commit_resValue (p : List Byte) (r : Results) (s : State) : (commit p r s).resValue = r.value := rfl
@[simp] theorem commit_resLen (p : List Byte) (r : Results) (s : State) : (commit p r s).resLen = r.len := rfl
@[simp] theorem commit_resPrefix (p : List Byte) (r : Results) (s : State) : (commit p r s).resPrefix = r.pre := rfl
@[simp] theorem commit_resNeg (p : List Byte) (r : Results) (s : State) : (commit p r s).resNeg = r.neg := rfl
@[simp] theorem commit_resDp (p : List Byte) (r : Results) (s : State) : (commit p r s).resDp = r.dp := rfl
@[simp] theorem commit_out (p : List Byte) (r : Results) (s : State) : (commit p r s).out = s.out ++ p := rfl
@[simp] theorem commit_ibufCap (p : List Byte) (r : Results) (s : State) : (commit p r s).ibufCap = s.ibufCap := rfl
@[simp] theorem commit_hostQueue (p : List Byte) (r : Results) (s : State) : (commit p r s).hostQueue = s.hostQueue := rfl
@[simp] theorem commit_hostReads (p : List Byte) (r : Results) (s : State) : (commit p r s).hostReads = s.hostReads := rfl

@[simp] theorem raise_cmd (e : ErrCode) (s : State) : (raise e s).cmd = s.cmd := rfl
@[simp] theorem raise_accept (e : ErrCode) (s : State) : (raise e s).accept = false := rfl
@[simp] theorem raise_err (e : ErrCode) (s : State) : (raise e s).err = e.code := rfl
@[simp] theorem raise_fault (e : ErrCode) (s : State) : (raise e s).fault = (s.fault || e == .dpRange) := rfl
@[simp] theorem raise_argValue (e : ErrCode) (s : State) : (raise e s).argValue = s.argValue := rfl
@[simp] theorem raise_argCount (e : ErrCode) (s : State) : (raise e s).argCount = s.argCount := rfl
@[simp] theorem raise_argPrefix (e : ErrCode) (s : State) : (raise e s).argPrefix = s.argPrefix := rfl
@[simp] theorem raise_argNeg (e : ErrCode) (s : State) : (raise e s).argNeg = s.argNeg := rfl
@[simp] theorem raise_argDp (e : ErrCode) (s : State) : (raise e s).argDp = s.argDp := rfl
@[simp] theorem raise_ibuf (e : ErrCode) (s : State) : (raise e s).ibuf = s.ibuf := rfl
@[simp] theorem raise_ibufLen (e : ErrCode) (s : State) : (raise e s).ibufLen = s.ibufLen := rfl
@[simp] theorem raise_resValue (e : ErrCode) (s : State) : (raise e s).resValue = s.resValue := rfl
@[simp] theorem raise_resLen (e : ErrCode) (s : State) : (raise e s).resLen = s.resLen := rfl
@[simp] theorem raise_resPrefix (e : ErrCode) (s : State) : (raise e s).resPrefix = s.resPrefix := rfl
@[simp] theorem raise_resNeg (e : ErrCode) (s : State) : (raise e s).resNeg = s.resNeg := rfl
@[simp] theorem raise_resDp (e : ErrCode) (s : State) : (raise e s).resDp = s.resDp := rfl
@[simp] theorem raise_out (e : ErrCode) (s : State) : (raise e s).out = s.out := rfl
@[simp] theorem raise_ibufCap (e : ErrCode) (s : State) : (raise e s).ibufCap = s.ibufCap := rfl
@[simp] theorem raise_hostQueue (e : ErrCode) (s : State) : (raise e s).hostQueue = s.hostQueue := rfl
@[simp] theorem raise_hostReads (e : ErrCode) (s : State) : (raise e s).hostReads = s.hostReads := rfl

@[simp] theorem decline_cmd (s : State) : (decline s).cmd = s.cmd := rfl
@[simp] theorem decline_accept (s : State) : (decline s).accept = false := rfl
@[simp] theorem decline_err (s : State) : (decline s).err = 0 := rfl
@[simp] theorem decline_fault (s : State) : (decline s).fault = s.fault := rfl
@[simp] theorem decline_argValue (s : State) : (decline s).argValue = s.argValue := rfl
@[simp] theorem decline_argCount (s : State) : (decline s).argCount = s.argCount := rfl
@[simp] theorem decline_argPrefix (s : State) : (decline s).argPrefix = s.argPrefix := rfl
@[simp] theorem decline_argNeg (s : State) : (decline s).argNeg = s.argNeg := rfl
@[simp] theorem decline_argDp (s : State) : (decline s).argDp = s.argDp := rfl
@[simp] theorem decline_ibuf (s : State) : (decline s).ibuf = s.ibuf := rfl
@[simp] theorem decline_ibufLen (s : State) : (decline s).ibufLen = s.ibufLen := rfl
@[simp] theorem decline_resValue (s : State) : (decline s).resValue = s.resValue := rfl
@[simp] theorem decline_resLen (s : State) : (decline s).resLen = s.resLen := rfl
@[simp] theorem decline_resPrefix (s : State) : (decline s).resPrefix = s.resPrefix := rfl
@[simp] theorem decline_resNeg (s : State) : (decline s).resNeg = s.resNeg := rfl
@[simp] theorem decline_resDp (s : State) : (decline s).resDp = s.resDp := rfl
@[simp] theorem decline_out (s : State) : (decline s).out = s.out := rfl
@[simp] theorem decline_ibufCap (s : State) : (decline s).ibufCap = s.ibufCap := rfl
@[simp] theorem decline_hostQueue (s : State) : (decline s).hostQueue = s.hostQueue := rfl
@[simp] theorem decline_hostReads (s : State) : (decline s).hostReads = s.hostReads := rfl

@[simp] theorem queueCommand_cmd (w : Word) (s : State) : (queueCommand w s).cmd = s.cmd := rfl
@[simp] theorem queueCommand_accept (w : Word) (s : State) : (queueCommand w s).accept = s.accept := rfl
@[simp] theorem queueCommand_err (w : Word) (s : State) : (queueCommand w s).err = s.err := rfl
@[simp] theorem queueCommand_fault (w : Word) (s : State) : (queueCommand w s).fault = s.fault := rfl
@[simp] theorem queueCommand_argValue (w : Word) (s : State) : (queueCommand w s).argValue = s.argValue := rfl
@[simp] theorem queueCommand_argCount (w : Word) (s : State) : (queueCommand w s).argCount = s.argCount := rfl
@[simp] theorem queueCommand_argPrefix (w : Word) (s : State) : (queueCommand w s).argPrefix = s.argPrefix := rfl
@[simp] theorem queueCommand_argNeg (w : Word) (s : State) : (queueCommand w s).argNeg = s.argNeg := rfl
@[simp] theorem queueCommand_argDp (w : Word) (s : State) : (queueCommand w s).argDp = s.argDp := rfl
@[simp] theorem queueCommand_ibuf (w : Word) (s : State) : (queueCommand w s).ibuf = s.ibuf := rfl
@[simp] theorem queueCommand_ibufLen (w : Word) (s : State) : (queueCommand w s).ibufLen = s.ibufLen := rfl
@[simp] theorem queueCommand_resValue (w : Word) (s : State) : (queueCommand w s).resValue = s.resValue := rfl
@[simp] theorem queueCommand_resLen (w : Word) (s : State) : (queueCommand w s).resLen = s.resLen := rfl
@[simp] theorem queueCommand_resPrefix (w : Word) (s : State) : (queueCommand w s).resPrefix = s.resPrefix := rfl
@[simp] theorem queueCommand_resNeg (w : Word) (s : State) : (queueCommand w s).resNeg = s.resNeg := rfl
@[simp] theorem queueCommand_resDp (w : Word) (s : State) : (queueCommand w s).resDp = s.resDp := rfl
@[simp] theorem queueCommand_out (w : Word) (s : State) : (queueCommand w s).out = s.out := rfl
@[simp] theorem queueCommand_ibufCap (w : Word) (s : State) : (queueCommand w s).ibufCap = s.ibufCap := rfl
@[simp] theorem queueCommand_hostQueue (w : Word) (s : State) : (queueCommand w s).hostQueue =
    .write 0x00 8 w :: s.hostQueue := rfl
@[simp] theorem queueCommand_hostReads (w : Word) (s : State) : (queueCommand w s).hostReads = s.hostReads := rfl

@[simp] theorem platformReset_cmd (s : State) : (platformReset s).cmd = 0 := rfl
@[simp] theorem platformReset_accept (s : State) : (platformReset s).accept = false := rfl
@[simp] theorem platformReset_err (s : State) : (platformReset s).err = 0 := rfl
@[simp] theorem platformReset_fault (s : State) : (platformReset s).fault = false := rfl
@[simp] theorem platformReset_argValue (s : State) : (platformReset s).argValue = 0 := rfl
@[simp] theorem platformReset_argCount (s : State) : (platformReset s).argCount = 0 := rfl
@[simp] theorem platformReset_argPrefix (s : State) : (platformReset s).argPrefix = 0 := rfl
@[simp] theorem platformReset_argNeg (s : State) : (platformReset s).argNeg = false := rfl
@[simp] theorem platformReset_argDp (s : State) : (platformReset s).argDp = 0 := rfl
@[simp] theorem platformReset_ibuf (s : State) : (platformReset s).ibuf = [] := rfl
@[simp] theorem platformReset_ibufLen (s : State) : (platformReset s).ibufLen = 0 := rfl
@[simp] theorem platformReset_resValue (s : State) : (platformReset s).resValue = 0 := rfl
@[simp] theorem platformReset_resLen (s : State) : (platformReset s).resLen = 0 := rfl
@[simp] theorem platformReset_resPrefix (s : State) : (platformReset s).resPrefix = 0 := rfl
@[simp] theorem platformReset_resNeg (s : State) : (platformReset s).resNeg = false := rfl
@[simp] theorem platformReset_resDp (s : State) : (platformReset s).resDp = 0 := rfl
@[simp] theorem platformReset_out (s : State) : (platformReset s).out = [] := rfl
@[simp] theorem platformReset_ibufCap (s : State) : (platformReset s).ibufCap = s.ibufCap := rfl
@[simp] theorem platformReset_hostQueue (s : State) : (platformReset s).hostQueue = s.hostQueue := rfl
@[simp] theorem platformReset_hostReads (s : State) : (platformReset s).hostReads = s.hostReads := rfl

/-! The state after reset. -/

@[simp] theorem resetWith_cmd (cap : Nat) : (State.resetWith cap).cmd = 0 := rfl
@[simp] theorem resetWith_accept (cap : Nat) : (State.resetWith cap).accept = false := rfl
@[simp] theorem resetWith_err (cap : Nat) : (State.resetWith cap).err = 0 := rfl
@[simp] theorem resetWith_fault (cap : Nat) : (State.resetWith cap).fault = false := rfl
@[simp] theorem resetWith_argValue (cap : Nat) : (State.resetWith cap).argValue = 0 := rfl
@[simp] theorem resetWith_argCount (cap : Nat) : (State.resetWith cap).argCount = 0 := rfl
@[simp] theorem resetWith_argPrefix (cap : Nat) : (State.resetWith cap).argPrefix = 0 := rfl
@[simp] theorem resetWith_argNeg (cap : Nat) : (State.resetWith cap).argNeg = false := rfl
@[simp] theorem resetWith_argDp (cap : Nat) : (State.resetWith cap).argDp = 0 := rfl
@[simp] theorem resetWith_ibuf (cap : Nat) : (State.resetWith cap).ibuf = [] := rfl
@[simp] theorem resetWith_ibufLen (cap : Nat) : (State.resetWith cap).ibufLen = 0 := rfl
@[simp] theorem resetWith_resValue (cap : Nat) : (State.resetWith cap).resValue = 0 := rfl
@[simp] theorem resetWith_resLen (cap : Nat) : (State.resetWith cap).resLen = 0 := rfl
@[simp] theorem resetWith_resPrefix (cap : Nat) : (State.resetWith cap).resPrefix = 0 := rfl
@[simp] theorem resetWith_resNeg (cap : Nat) : (State.resetWith cap).resNeg = false := rfl
@[simp] theorem resetWith_resDp (cap : Nat) : (State.resetWith cap).resDp = 0 := rfl
@[simp] theorem resetWith_out (cap : Nat) : (State.resetWith cap).out = [] := rfl
@[simp] theorem resetWith_hostQueue (cap : Nat) : (State.resetWith cap).hostQueue = [] := rfl
@[simp] theorem resetWith_hostReads (cap : Nat) : (State.resetWith cap).hostReads = [] := rfl
@[simp] theorem resetWith_ibufCap (cap : Nat) : (State.resetWith cap).ibufCap = cap := rfl

/-! Writes to the data registers and the effect of reads, register by register. -/

@[simp] theorem writeReg_argValue (w : Word) (s : State) : writeReg .argValue w s = { s with argValue := w } := rfl
@[simp] theorem writeReg_argCount (w : Word) (s : State) : writeReg .argCount w s = { s with argCount := w } := rfl
@[simp] theorem writeReg_argAux (w : Word) (s : State) : writeReg .argAux w s =
    { s with argPrefix := w.extractLsb' 0 8, argNeg := w.getLsbD 8, argDp := w.extractLsb' 16 8 } := rfl
@[simp] theorem writeReg_ibufLen (w : Word) (s : State) : writeReg .ibufLen w s =
    { s with ibufLen := legalLen s.ibufCap w } := rfl
@[simp] theorem writeReg_cmd (w : Word) (s : State) : writeReg .cmd w s = s := rfl
@[simp] theorem writeReg_status (w : Word) (s : State) : writeReg .status w s = s := rfl
@[simp] theorem writeReg_resValue (w : Word) (s : State) : writeReg .resValue w s = s := rfl
@[simp] theorem writeReg_resLen (w : Word) (s : State) : writeReg .resLen w s = s := rfl
@[simp] theorem writeReg_resAux (w : Word) (s : State) : writeReg .resAux w s = s := rfl
@[simp] theorem writeReg_outLen (w : Word) (s : State) : writeReg .outLen w s = s := rfl
@[simp] theorem writeReg_outData (w : Word) (s : State) : writeReg .outData w s = s := rfl

@[simp] theorem readEffect_outData (s : State) : readEffect (.reg .outData) s = { s with out := s.out.tail } := rfl
@[simp] theorem readEffect_ibuf (a : Nat) (s : State) : readEffect (.ibuf a) s = s := rfl

theorem readEffect_plain (l : Location) (s : State) (h : l ≠ .reg .outData) : readEffect l s = s := by
  rcases l with r | a
  · cases r <;> first | rfl | exact absurd rfl h
  · rfl

theorem legalLen_le (cap : Nat) (w : Word) : legalLen cap w ≤ cap := Nat.min_le_right _ _

@[simp] theorem writeReg_ibufCap (r : Reg) (w : Word) (s : State) : (writeReg r w s).ibufCap = s.ibufCap := by
  cases r <;> rfl

@[simp] theorem readEffect_ibufCap (l : Location) (s : State) : (readEffect l s).ibufCap = s.ibufCap := by
  rcases l with r | a
  · cases r <;> rfl
  · rfl

end Sys2Proof.Machine
end

