-- ==== Sys2Proof/Laws/Ops.lean ====
section
/-! SUPPORT. What each shared operation can do, said once: a command's run and ending, a write to CMD, a host access,
a step. -/

namespace Sys2Proof.Machine

theorem runCommand_ready (body : State → Ending) (s : State) (h : s.fault = false) :
    runCommand body s = .next (finish (body s) s) := by simp [runCommand, h]

theorem runCommand_faulted (body : State → Ending) (s : State) (h : s.fault = true) :
    runCommand body s = .next (raise .faulted s) := by simp [runCommand, h]

/-- What a command's run leaves: the refusal while faulted, or its own ending. -/
theorem runCommand_cases {body : State → Ending} {s t : State} (h : runCommand body s = .next t) :
    (s.fault = true ∧ t = raise .faulted s) ∨
    (s.fault = false ∧ ∃ p r, body s = .commit p r ∧ t = commit p r s) ∨
    (s.fault = false ∧ ∃ e, body s = .raise e ∧ t = raise e s) ∨
    (s.fault = false ∧ body s = .decline ∧ t = decline s) := by
  cases hf : s.fault with
  | true =>
    rw [runCommand_faulted body s hf] at h
    exact .inl ⟨rfl, (Host.Outcome.next.inj h).symm⟩
  | false =>
    rw [runCommand_ready body s hf] at h
    have ht := (Host.Outcome.next.inj h).symm
    cases hb : body s with
    | commit p r => exact .inr (.inl ⟨rfl, p, r, rfl, by simpa [hb, finish] using ht⟩)
    | raise e => exact .inr (.inr (.inl ⟨rfl, e, rfl, by simpa [hb, finish] using ht⟩))
    | decline => exact .inr (.inr (.inr ⟨rfl, rfl, by simpa [hb, finish] using ht⟩))

@[simp] theorem endingOf_ok (p : List Byte) (r : Results) : endingOf (.ok (p, r)) = .commit p r := rfl
@[simp] theorem endingOf_error (e : ErrCode) : endingOf (.error e) = .raise e := rfl

/-- The ending of each command, before the check of FAULT. -/
def bodyOf (i : Instr) : State → Ending :=
  match i with
  | .vleEncR0 => vleEncCommand .r0
  | .vleEncR1 => vleEncCommand .r1
  | .vleEncR4 => vleEncCommand .r4
  | .vleEncR5 => vleEncCommand .r5
  | .vleEncR6 => vleEncCommand .r6
  | .vleDecR0 => vleDecCommand .r0
  | .vleDecR1 => vleDecCommand .r1
  | .vleDecR4 => vleDecCommand .r4
  | .vleDecR5 => vleDecCommand .r5
  | .vleDecR6 => vleDecCommand .r6
  | .spcEnc => spcEncCommand
  | .spcDec => spcDecCommand
  | .numEncUi => numEncCommand .ui
  | .numEncSi => numEncCommand .si
  | .numEncUd => numEncCommand .ud
  | .numEncSd => numEncCommand .sd
  | .numDecUi => numDecCommand .ui
  | .numDecSi => numDecCommand .si
  | .numDecUd => numDecCommand .ud
  | .numDecSd => numDecCommand .sd

/-- Every command is one run of its ending. -/
theorem exec_eq_runCommand (i : Instr) (s : State) : exec i s = runCommand (bodyOf i) s := by cases i <;> rfl

theorem exec_vleEnc (r : Reserved) (s : State) : exec (.vleEnc r) s = runCommand (vleEncCommand r) s := by
  cases r <;> rfl

theorem exec_vleDec (r : Reserved) (s : State) : exec (.vleDec r) s = runCommand (vleDecCommand r) s := by
  cases r <;> rfl

theorem exec_numEnc (m : Mode) (s : State) : exec (.numEnc m) s = runCommand (numEncCommand m) s := by
  cases m <;> rfl

theorem exec_numDec (m : Mode) (s : State) : exec (.numDec m) s = runCommand (numDecCommand m) s := by
  cases m <;> rfl

/-- Where each kind of access leads. -/
theorem locate_cases {cap : Nat} {off : BitVec 8} {n : Nat} {l : Location} (h : locate cap off n = some l) :
    (n = 8 ∧ ∃ r, regAt off = some r ∧ l = .reg r) ∨
    (n = 1 ∧ Config.ibufBase ≤ off.toNat ∧ off.toNat < Config.ibufBase + cap ∧ l = .ibuf off.toNat) := by
  unfold locate at h
  split at h
  · rename_i hn
    cases hr : regAt off with
    | none => simp [hr] at h
    | some r => exact .inl ⟨hn, r, rfl, by simpa [hr] using h.symm⟩
  · split at h
    · rename_i hc
      exact .inr ⟨hc.1, hc.2.1, hc.2.2, (Option.some.inj h).symm⟩
    · exact absurd h (by simp)

/-- A register is found at its own offset. -/
@[simp] theorem locate_offset (cap : Nat) (r : Reg) : locate cap r.offset 8 = some (.reg r) := by cases r <;> rfl

/-- A write to CMD: a decoded word runs its command; any other is reported. -/
theorem runWord_cases (w : Word) (s : State) :
    (∃ i, decode w = .ok i ∧ runWord w s = exec i { s with cmd := w }) ∨
    (∃ why, decode w = .error why ∧ runWord w s = .next (illegalCommand { s with cmd := w })) := by
  cases h : decode w with
  | ok i => exact .inl ⟨i, rfl, by simp [runWord, h]⟩
  | error why => exact .inr ⟨why, rfl, by simp [runWord, h]⟩

/-- Everything one host access, or reset, can do. -/
theorem hostStep_cases {op : HostOp} {s t : State} (h : hostStep op s = .next t) :
    (op = .reset ∧ t = platformReset s) ∨
    (∃ off n l, op = .read off n ∧ locate s.ibufCap off n = some l ∧
      t = readEffect l { s with hostReads := s.hostReads ++ [locationWord l s] }) ∨
    (∃ off n v, op = .write off n v ∧ locate s.ibufCap off n = some (.reg .cmd) ∧ runWord v s = .next t) ∨
    (∃ off n v r, op = .write off n v ∧ locate s.ibufCap off n = some (.reg r) ∧ r ≠ .cmd ∧ t = writeReg r v s) ∨
    (∃ off n v a, op = .write off n v ∧ locate s.ibufCap off n = some (.ibuf a) ∧
      t = { s with ibuf := Memory.write s.ibuf a (v.setWidth 8) }) := by
  cases op with
  | reset => exact .inl ⟨rfl, (Host.Outcome.next.inj h).symm⟩
  | read off n =>
    cases hl : locate s.ibufCap off n with
    | none => simp [hostStep, hl] at h
    | some l =>
      simp only [hostStep, hl] at h
      exact .inr (.inl ⟨off, n, l, rfl, hl, (Host.Outcome.next.inj h).symm⟩)
  | write off n v =>
    cases hl : locate s.ibufCap off n with
    | none => simp [hostStep, hl] at h
    | some l =>
      simp only [hostStep, hl] at h
      refine .inr (.inr ?_)
      rcases l with r | a
      · by_cases hr : r = .cmd
        · subst hr; exact .inl ⟨off, n, v, rfl, hl, h⟩
        · refine .inr (.inl ⟨off, n, v, r, rfl, hl, hr, ?_⟩)
          cases r <;> first | exact absurd rfl hr | exact (Host.Outcome.next.inj h).symm
      · exact .inr (.inr ⟨off, n, v, a, rfl, hl, (Host.Outcome.next.inj h).symm⟩)

/-- A step waits, or takes the first thing in the host's queue. -/
theorem step_cases {s t : State} (h : step s = .next t) :
    (s.hostQueue = [] ∧ t = s) ∨
    ∃ op rest, s.hostQueue = op :: rest ∧ hostStep op { s with hostQueue := rest } = .next t := by
  unfold step stepHost at h
  cases hq : s.hostQueue with
  | nil => rw [hq] at h; exact .inl ⟨rfl, (Host.Outcome.next.inj h).symm⟩
  | cons op rest => rw [hq] at h; exact .inr ⟨op, rest, rfl, h⟩

theorem step_cons {s : State} {op : HostOp} {rest : List HostOp} (h : s.hostQueue = op :: rest) :
    step s = hostStep op { s with hostQueue := rest } := by simp [step, stepHost, h]

/-- A word placed by `withFetchWord` is what the next step writes to CMD, with the queue as it was. -/
theorem step_withFetchWord (s : State) (nbits w : Nat) :
    step (s.withFetchWord nbits w) = runWord (BitVec.ofNat 64 w) s := rfl

end Sys2Proof.Machine
end

