-- ==== Sys2Proof/Laws/PerInstr.lean ====
section
/-! SUPPORT. What holds of every command as syntax, one lemma a constructor. -/

namespace Sys2Proof.Laws

/-- A well-formed command's word decodes to it. -/
def RoundTrip.Statement (i : Instr) : Prop := i.wellFormed = true → decode (encode i) = .ok i

/-- A command's word has the fields that R71 to R73 give it. -/
def WordFields.Statement (i : Instr) : Prop := Fields.ofWord (encode i) = i.fields

theorem RoundTrip.vleEncR0 : RoundTrip.Statement .vleEncR0 := fun _ => by decide
theorem RoundTrip.vleEncR1 : RoundTrip.Statement .vleEncR1 := fun _ => by decide
theorem RoundTrip.vleEncR4 : RoundTrip.Statement .vleEncR4 := fun _ => by decide
theorem RoundTrip.vleEncR5 : RoundTrip.Statement .vleEncR5 := fun _ => by decide
theorem RoundTrip.vleEncR6 : RoundTrip.Statement .vleEncR6 := fun _ => by decide
theorem RoundTrip.vleDecR0 : RoundTrip.Statement .vleDecR0 := fun _ => by decide
theorem RoundTrip.vleDecR1 : RoundTrip.Statement .vleDecR1 := fun _ => by decide
theorem RoundTrip.vleDecR4 : RoundTrip.Statement .vleDecR4 := fun _ => by decide
theorem RoundTrip.vleDecR5 : RoundTrip.Statement .vleDecR5 := fun _ => by decide
theorem RoundTrip.vleDecR6 : RoundTrip.Statement .vleDecR6 := fun _ => by decide
theorem RoundTrip.spcEnc : RoundTrip.Statement .spcEnc := fun _ => by decide
theorem RoundTrip.spcDec : RoundTrip.Statement .spcDec := fun _ => by decide
theorem RoundTrip.numEncUi : RoundTrip.Statement .numEncUi := fun _ => by decide
theorem RoundTrip.numEncSi : RoundTrip.Statement .numEncSi := fun _ => by decide
theorem RoundTrip.numEncUd : RoundTrip.Statement .numEncUd := fun _ => by decide
theorem RoundTrip.numEncSd : RoundTrip.Statement .numEncSd := fun _ => by decide
theorem RoundTrip.numDecUi : RoundTrip.Statement .numDecUi := fun _ => by decide
theorem RoundTrip.numDecSi : RoundTrip.Statement .numDecSi := fun _ => by decide
theorem RoundTrip.numDecUd : RoundTrip.Statement .numDecUd := fun _ => by decide
theorem RoundTrip.numDecSd : RoundTrip.Statement .numDecSd := fun _ => by decide

theorem WordFields.vleEncR0 : WordFields.Statement .vleEncR0 := by unfold WordFields.Statement; decide
theorem WordFields.vleEncR1 : WordFields.Statement .vleEncR1 := by unfold WordFields.Statement; decide
theorem WordFields.vleEncR4 : WordFields.Statement .vleEncR4 := by unfold WordFields.Statement; decide
theorem WordFields.vleEncR5 : WordFields.Statement .vleEncR5 := by unfold WordFields.Statement; decide
theorem WordFields.vleEncR6 : WordFields.Statement .vleEncR6 := by unfold WordFields.Statement; decide
theorem WordFields.vleDecR0 : WordFields.Statement .vleDecR0 := by unfold WordFields.Statement; decide
theorem WordFields.vleDecR1 : WordFields.Statement .vleDecR1 := by unfold WordFields.Statement; decide
theorem WordFields.vleDecR4 : WordFields.Statement .vleDecR4 := by unfold WordFields.Statement; decide
theorem WordFields.vleDecR5 : WordFields.Statement .vleDecR5 := by unfold WordFields.Statement; decide
theorem WordFields.vleDecR6 : WordFields.Statement .vleDecR6 := by unfold WordFields.Statement; decide
theorem WordFields.spcEnc : WordFields.Statement .spcEnc := by unfold WordFields.Statement; decide
theorem WordFields.spcDec : WordFields.Statement .spcDec := by unfold WordFields.Statement; decide
theorem WordFields.numEncUi : WordFields.Statement .numEncUi := by unfold WordFields.Statement; decide
theorem WordFields.numEncSi : WordFields.Statement .numEncSi := by unfold WordFields.Statement; decide
theorem WordFields.numEncUd : WordFields.Statement .numEncUd := by unfold WordFields.Statement; decide
theorem WordFields.numEncSd : WordFields.Statement .numEncSd := by unfold WordFields.Statement; decide
theorem WordFields.numDecUi : WordFields.Statement .numDecUi := by unfold WordFields.Statement; decide
theorem WordFields.numDecSi : WordFields.Statement .numDecSi := by unfold WordFields.Statement; decide
theorem WordFields.numDecUd : WordFields.Statement .numDecUd := by unfold WordFields.Statement; decide
theorem WordFields.numDecSd : WordFields.Statement .numDecSd := by unfold WordFields.Statement; decide

end Sys2Proof.Laws
end

