-- ==== Sys2Proof/Laws/Vle.lean ====
section
/-! SUPPORT. The input primitive's two outcomes, and that the bounds on the three loops never bite (log entry 11). -/

namespace Sys2Proof.Machine

theorem inByte_inside {s : State} {i : Nat} (h : i < s.ibufLen) : inByte s i = .ok (ibufByte s i) := by
  simp [inByte, Nat.not_le.2 h]

theorem inByte_beyond {s : State} {i : Nat} (h : s.ibufLen ≤ i) : inByte s i = .error .trunc := by
  simp [inByte, h]

theorem lebChunks_succ (f : Nat) (v : Word) : lebChunks (f + 1) v =
    if v >>> 7 = 0 then [lowByte 7 v] else (lowByte 7 v ||| 0x80) :: lebChunks f (v >>> 7) := rfl

theorem digitsUpTo_succ (f n : Nat) : digitsUpTo (f + 1) n =
    if n < 10 then [digitChar n] else digitsUpTo f (n / 10) ++ [digitChar (n % 10)] := rfl

/-- Any two bounds that hold the value give the same chunks. -/
theorem lebChunks_fuel (f g : Nat) (v : Word) (hf : v.toNat < 2 ^ (7 * (f + 1))) (hg : v.toNat < 2 ^ (7 * (g + 1))) :
    lebChunks (f + 1) v = lebChunks (g + 1) v := by
  induction f generalizing g v with
  | zero =>
    have : v >>> 7 = 0 := by
      apply BitVec.eq_of_toNat_eq
      simp only [BitVec.toNat_ushiftRight, Nat.shiftRight_eq_div_pow]
      exact Nat.div_eq_of_lt (by simpa using hf)
    simp [lebChunks, this]
  | succ f ih =>
    by_cases hr : v >>> 7 = 0
    · simp [lebChunks, hr]
    · have hv : (v >>> 7).toNat = v.toNat / 2 ^ 7 := by
        simp only [BitVec.toNat_ushiftRight, Nat.shiftRight_eq_div_pow]
      cases g with
      | zero =>
        exact absurd (BitVec.eq_of_toNat_eq (by rw [hv]; exact Nat.div_eq_of_lt (by simpa using hg))) hr
      | succ g =>
        have step (k : Nat) (h : v.toNat < 2 ^ (7 * (k + 1 + 1))) : (v >>> 7).toNat < 2 ^ (7 * (k + 1)) := by
          rw [hv]
          refine Nat.div_lt_of_lt_mul ?_
          rw [← pow_add]
          exact lt_of_lt_of_eq h (congrArg _ (by ring))
        have := ih g (v >>> 7) (step f hf) (step g hg)
        rw [lebChunks_succ (f + 1), lebChunks_succ (g + 1), this]

/-- Any two bounds that reach offset 64 give the same decoding. -/
theorem lebDecodeFrom_fuel (s : State) (pos d f g k : Nat) (acc : Word) (hf : 64 ≤ d + 7 * (k + f))
    (hg : 64 ≤ d + 7 * (k + g)) : lebDecodeFrom s pos d f k acc = lebDecodeFrom s pos d g k acc := by
  have out (f' : Nat) (h : 64 ≤ d + 7 * k) : lebDecodeFrom s pos d f' k acc = .error .overlong := by
    cases f' with
    | zero => rfl
    | succ f' => simp [lebDecodeFrom, h]
  induction f generalizing g k acc with
  | zero => rw [out 0 (by omega), out g (by omega)]
  | succ f ih =>
    cases g with
    | zero => rw [out 0 (by omega), out (f + 1) (by omega)]
    | succ g =>
      have next (acc' : Word) : lebDecodeFrom s pos d f (k + 1) acc' = lebDecodeFrom s pos d g (k + 1) acc' := by
        refine ih g (k + 1) acc' (by omega) (by omega) (fun f' h => ?_)
        cases f' with
        | zero => rfl
        | succ f' => simp [lebDecodeFrom, h]
      simp only [lebDecodeFrom, next]

/-- Any two bounds that hold the number give the same digits. -/
theorem digitsUpTo_fuel (f g n : Nat) (hf : n < 10 ^ (f + 1)) (hg : n < 10 ^ (g + 1)) :
    digitsUpTo (f + 1) n = digitsUpTo (g + 1) n := by
  induction f generalizing g n with
  | zero => simp [digitsUpTo, show n < 10 by simpa using hf]
  | succ f ih =>
    by_cases hn : n < 10
    · simp [digitsUpTo, hn]
    · cases g with
      | zero => exact absurd (by simpa using hg) hn
      | succ g =>
        have step (k : Nat) (h : n < 10 ^ (k + 1 + 1)) : n / 10 < 10 ^ (k + 1) :=
          Nat.div_lt_of_lt_mul (lt_of_lt_of_eq h (by ring))
        have := ih g (n / 10) (step f hf) (step g hg)
        rw [digitsUpTo_succ (f + 1), digitsUpTo_succ (g + 1), this]

end Sys2Proof.Machine
end

