-- ==== Sys2Proof/Tests/Slice0.lean ====
section
/-! SUPPORT. The model's own tests. Expected values are those of spec/95_test_vectors.md (V1 to V7, T1 to T13, P3) unless a
comment says otherwise; the witnesses at the end show that no statement's hypotheses are empty. -/

namespace Sys2Proof.Tests

open Sys2Proof Sys2Proof.Machine

/-- A machine just out of reset, with input loaded. -/
def input (bytes : List Byte) : State :=
  { State.reset with
    ibuf := (List.range bytes.length).foldl (fun m i => Memory.write m (0x80 + i) (bytes.getD i 0)) []
    ibufLen := bytes.length }

/-- A machine just out of reset, with the argument registers set. -/
def args (v : Word) (pre : Byte) (neg : Bool) (dp : Byte) : State :=
  { State.reset with argValue := v, argPrefix := pre, argNeg := neg, argDp := dp }

/-- The state an outcome leaves, if it leaves one. -/
def left (o : Host.Outcome State Fault Refusal) : Option State :=
  match o with
  | .next t => some t
  | .fault _ => none
  | .refused _ => none

/-- OUT and RES_LEN after a command. -/
def emitted (i : Instr) (s : State) : Option (List Byte × Word) := (left (exec i s)).map (fun t => (t.out, t.resLen))

/-- RES_VALUE, RES_LEN and RES_AUX.PREFIX after a command. -/
def decoded (i : Instr) (s : State) : Option (Word × Word × Byte) :=
  (left (exec i s)).map (fun t => (t.resValue, t.resLen, t.resPrefix))

/-- STATUS after a command. -/
def status (i : Instr) (s : State) : Option Word := (left (exec i s)).map (regWord .status)

/-- STATUS after a word is written to CMD. -/
def statusOfWord (w : Word) (s : State) : Option Word := (left (runWord w s)).map (regWord .status)

/-- A machine whose host's next access is given. -/
def next (op : HostOp) (s : State) : State := { s with hostQueue := [op] }

/-! ### Well-formedness: an ill-formed word for each check of R74 -/

theorem test_bit63_ill : (Fields.ofWord 0x8000000000000003).wellFormed = false := by decide
theorem test_bit10_ill : (Fields.ofWord 0x405).reservedZero = false := by decide
theorem test_bit7_ill : (Fields.ofWord 0x85).reservedZero = false := by decide
theorem test_opcode0_ill : (Fields.ofWord 0x0).opcodeLegal = false := by decide
theorem test_opcode7_ill : (Fields.ofWord 0x7).opcodeLegal = false := by decide
theorem test_r2_ill : (Fields.ofWord 0x21).rLegal = false := by decide
theorem test_r_of_space_ill : (Fields.ofWord 0x13).rLegal = false := by decide
theorem test_mode_of_vle_ill : (Fields.ofWord 0x161).modeLegal = false := by decide
theorem test_mode_of_space_ill : (Fields.ofWord 0x103).modeLegal = false := by decide
theorem test_every_instr_wellFormed (i : Instr) : i.wellFormed = true := by cases i <;> decide

/-! ### Decoding: each word written out from the fields MODE, bit 7, R, OPC of R70 to R73 -/

theorem test_decode_vleEncR0 : decode 0b00_0_000_0001 = .ok .vleEncR0 := by decide
theorem test_decode_vleEncR1 : decode 0b00_0_001_0001 = .ok .vleEncR1 := by decide
theorem test_decode_vleEncR4 : decode 0b00_0_100_0001 = .ok .vleEncR4 := by decide
theorem test_decode_vleEncR5 : decode 0b00_0_101_0001 = .ok .vleEncR5 := by decide
theorem test_decode_vleEncR6 : decode 0b00_0_110_0001 = .ok .vleEncR6 := by decide
theorem test_decode_vleDecR0 : decode 0b00_0_000_0010 = .ok .vleDecR0 := by decide
theorem test_decode_vleDecR1 : decode 0b00_0_001_0010 = .ok .vleDecR1 := by decide
theorem test_decode_vleDecR4 : decode 0b00_0_100_0010 = .ok .vleDecR4 := by decide
theorem test_decode_vleDecR5 : decode 0b00_0_101_0010 = .ok .vleDecR5 := by decide
theorem test_decode_vleDecR6 : decode 0b00_0_110_0010 = .ok .vleDecR6 := by decide
theorem test_decode_spcEnc : decode 0b00_0_000_0011 = .ok .spcEnc := by decide
theorem test_decode_spcDec : decode 0b00_0_000_0100 = .ok .spcDec := by decide
theorem test_decode_numEncUi : decode 0b00_0_000_0101 = .ok .numEncUi := by decide
theorem test_decode_numEncSi : decode 0b01_0_000_0101 = .ok .numEncSi := by decide
theorem test_decode_numEncUd : decode 0b10_0_000_0101 = .ok .numEncUd := by decide
theorem test_decode_numEncSd : decode 0b11_0_000_0101 = .ok .numEncSd := by decide
theorem test_decode_numDecUi : decode 0b00_0_000_0110 = .ok .numDecUi := by decide
theorem test_decode_numDecSi : decode 0b01_0_000_0110 = .ok .numDecSi := by decide
theorem test_decode_numDecUd : decode 0b10_0_000_0110 = .ok .numDecUd := by decide
theorem test_decode_numDecSd : decode 0b11_0_000_0110 = .ok .numDecSd := by decide
theorem test_decode_opcode15 : decode 0xF = .error .opcode := by decide
theorem test_decode_r3 : decode 0x32 = .error .rField := by decide
theorem test_decode_mode1 : decode 0x161 = .error .modeField := by decide
theorem test_decode_high_bit : decode 0x8000000000000003 = .error .reservedBits := by decide
theorem test_table_word : decodeTableWord 64 0x305 = some .numEncSd := by decide

/-! ### Commands: at most two vectors each -/

theorem test_vleEncR0_18_nines : emitted .vleEncR0 (args 999999999999999999 0 false 0) =
    some ([0xFF, 0xFF, 0x8F, 0xBB, 0xBA, 0xD6, 0xAD, 0xF0, 0x0D], 9) := by decide
theorem test_vleEncR0_no_prefix : emitted .vleEncR0 (args 5 0xFF false 0) = some ([0x05], 1) := by decide
theorem test_vleEncR1_zero_byte : emitted .vleEncR1 (args 0 0xE6 false 0) = some ([0xE6, 0x00], 2) := by decide
theorem test_vleEncR1_256 : emitted .vleEncR1 (args 256 0 false 0) = some ([0x00, 0x80, 0x01], 3) := by decide
theorem test_vleEncR4_prefix : emitted .vleEncR4 (args 9 0xD0 false 0) = some ([0xD9, 0x01], 2) := by decide
theorem test_vleEncR4_max : emitted .vleEncR4 (args 0xFFFFFFFFFFFFFFFF 0 false 0) =
    some ([0x0F, 0xFF, 0xFF, 0xFF, 0xFF, 0xFF, 0xFF, 0xFF, 0xFF, 0x1F], 10) := by decide
theorem test_vleEncR5_last_one_byte : emitted .vleEncR5 (args 15 0 false 0) = some ([0x0F], 1) := by decide
theorem test_vleEncR5_prefix : emitted .vleEncR5 (args 20 0xE0 false 0) = some ([0xF4, 0x01], 2) := by decide
theorem test_vleEncR6_prefix_dropped : emitted .vleEncR6 (args 5 0xFF false 0) = some ([0xC5], 1) := by decide
theorem test_vleEncR6_12050 : emitted .vleEncR6 (args 12050 0xA0 false 0) = some ([0xB2, 0xF8, 0x02], 3) := by decide

theorem test_vleDecR0_nonminimal : decoded .vleDecR0 (input [0x80, 0x00]) = some (0, 2, 0) := by decide
theorem test_vleDecR0_overlong : status .vleDecR0
    (input [0xFF, 0xFF, 0xFF, 0xFF, 0xFF, 0xFF, 0xFF, 0xFF, 0xFF, 0x02]) = some 0x030 := by decide
theorem test_vleDecR1_prefix : decoded .vleDecR1 (input [0xE7, 0x02]) = some (5, 2, 0xE6) := by decide
theorem test_vleDecR1_offset_before_read : status .vleDecR1
    (input [0x01, 0xFF, 0xFF, 0xFF, 0xFF, 0xFF, 0xFF, 0xFF, 0xFF, 0xFF]) = some 0x030 := by decide
theorem test_vleDecR4_nonminimal : decoded .vleDecR4 (input [0xFF, 0x00]) = some (7, 2, 0xF0) := by decide
theorem test_vleDecR4_trunc : status .vleDecR4 (input [0x08]) = some 0x020 := by decide
theorem test_vleDecR5_prefix : decoded .vleDecR5 (input [0xF4, 0x01]) = some (20, 2, 0xE0) := by decide
theorem test_vleDecR5_max : decoded .vleDecR5
    (input [0x1F, 0xFF, 0xFF, 0xFF, 0xFF, 0xFF, 0xFF, 0xFF, 0xFF, 0x0F]) = some (0xFFFFFFFFFFFFFFFF, 10, 0) := by decide
theorem test_vleDecR6_123 : decoded .vleDecR6 (input [0xFB, 0x03]) = some (123, 2, 0xC0) := by decide
theorem test_vleDecR6_overlong : status .vleDecR6
    (input [0x3F, 0xFF, 0xFF, 0xFF, 0xFF, 0xFF, 0xFF, 0xFF, 0xFF, 0x08]) = some 0x030 := by decide

theorem test_spcEnc_64 : emitted .spcEnc { State.reset with argCount := 64 } = some ([0xBF, 0x81], 2) := by decide
theorem test_spcEnc_1 : emitted .spcEnc { State.reset with argCount := 1 } = some ([0x20], 1) := by decide
theorem test_spcDec_3 : emitted .spcDec (input [0x83]) = some ([0x20, 0x20, 0x20], 1) := by decide
theorem test_spcDec_literal_space : status .spcDec (input [0x20]) = some 0x040 := by decide

theorem test_numEncUi_31 : emitted .numEncUi (args 31 0 false 0) = some ([0xDF], 1) := by decide
theorem test_numEncUi_32_declined : status .numEncUi (args 32 0 false 0) = some 0x000 := by decide
theorem test_numEncSi_minus_0 : emitted .numEncSi (args 0 0 true 0) = some ([0xE0], 1) := by decide
theorem test_numEncSi_operand : status .numEncSi (args 5 0 false 1) = some 0x050 := by decide
theorem test_numEncUd_12050 : emitted .numEncUd (args 12050 0 false 3) = some ([0xE6, 0x89, 0x2F], 3) := by decide
theorem test_numEncUd_fatal : status .numEncUd (args 12050 0 false 16) = some 0x160 := by decide
theorem test_numEncSd_minus_12050 : emitted .numEncSd (args 12050 0 true 3) = some ([0xF3, 0x92, 0x5E], 3) := by decide
theorem test_numEncSd_minus_12_declined : status .numEncSd (args 12 0 true 0) = some 0x000 := by decide

theorem test_numDecUi_declined_range : emitted .numDecUi (input [0xC5]) = some ([0x35], 1) := by decide
theorem test_numDecUi_badTag : status .numDecUi (input [0x80]) = some 0x040 := by decide
theorem test_numDecSi_minus_99 : emitted .numDecSi (input [0xF3, 0x06]) = some ([0x2D, 0x39, 0x39], 2) := by decide
theorem test_numDecSi_minus_0 : emitted .numDecSi (input [0xE0]) = some ([0x2D, 0x30], 1) := by decide
theorem test_numDecUd_0_005 : emitted .numDecUd (input [0xE7, 0x02]) = some ([0x30, 0x2E, 0x30, 0x30, 0x35], 2) := by
  decide
theorem test_numDecUd_bit4_ignored : emitted .numDecUd (input [0xD5]) = some ([0x35], 1) := by decide
theorem test_numDecSd_minus_12_050 : emitted .numDecSd (input [0xF3, 0x92, 0x5E]) =
    some ([0x2D, 0x31, 0x32, 0x2E, 0x30, 0x35, 0x30], 3) := by decide
theorem test_numDecSd_trunc : status .numDecSd (input [0xD3, 0x80]) = some 0x020 := by decide

/-! ### Words, priority and the register window -/

theorem test_illegal_word : statusOfWord 0x0 State.reset = some 0x010 := by decide
theorem test_faulted_before_illegal :
    statusOfWord 0x0 { State.reset with fault := true, err := 6 } = some 0x170 := by decide
theorem test_dpRange_before_operand : statusOfWord 0x005 (args 5 0 true 16) = some 0x160 := by decide
theorem test_cmd_keeps_illegal_word : (left (runWord 0x21 State.reset)).map (·.cmd) = some 0x21 := by decide
theorem test_argAux_reserved_bits :
    argAuxWord (writeReg .argAux 0xFFFFFFFFFFFFFFFF State.reset) = 0xFF01FF := by decide
theorem test_ibufLen_legalised : (left (hostStep (.write 0x28 8 17) State.reset)).map (·.ibufLen) = some 16 := by decide
/-- R7 and R51 at the least capacity: IBUF_LEN legalises to 11, and offset 0x80 + 11 is reserved. -/
theorem test_ibufLen_legalised_11 :
    (left (hostStep (.write 0x28 8 16) (State.resetWith 11))).map (·.ibufLen) = some 11 := by decide
theorem test_ibuf_end_11 : hostStep (.write 0x8B 1 0) (State.resetWith 11) = .fault .refusedAccess := by rfl
theorem test_outData_empty : regWord .outData State.reset = 0x100 := by decide
theorem test_reserved_offset : hostStep (.read 0x58 8) State.reset = .fault .refusedAccess := by rfl
theorem test_ibuf_end : hostStep (.write 0x90 1 0) State.reset = .fault .refusedAccess := by rfl
theorem test_fetch_word : (left (step (State.reset.withFetchWord 64 0x003))).map (regWord .status) = some 0x001 := by
  decide
/-- R76 writes `cmd SPC.ENC` as the word 0x003. -/
theorem test_host_cmd : hostCmd .spcEnc = [.write 0x00 8 0x3] := by decide
/-- R231 against R20: reading IBUF after reset gives 0 at both ends. -/
theorem test_reset_ibuf : ibufByte State.reset 0 = 0 ∧ ibufByte State.reset 15 = 0 := by decide

/-! ### Witnesses: states and operands that meet each statement's hypotheses -/

/-- A state whose next access is a CMD write. -/
def writes (w : Word) (s : State) : State := next (.write 0x00 8 w) s

/-- A faulted state. -/
def faulted : State := { State.reset with fault := true, err := 6, argDp := 16 }

theorem witness_StepRunsDecodedCommand :
    (writes 0x061 (args 12050 0xA0 false 0)).hostQueue = .write 0x00 8 0x061 :: [] ∧ decode 0x061 = .ok .vleEncR6 := by
  decide
theorem witness_IllegalWordIsReported_illegal :
    (writes 0x400 State.reset).hostQueue = .write 0x00 8 0x400 :: [] ∧ legal 0x400 = false := by decide
theorem witness_IllegalWordIsReported_legal :
    (writes 0x306 State.reset).hostQueue = .write 0x00 8 0x306 :: [] ∧ legal 0x306 = true ∧
      ∃ t, step (writes 0x306 State.reset) = .next t := ⟨by decide, by decide, _, rfl⟩
theorem witness_FaultedUnitRefusesCommands_command :
    (writes 0x003 faulted).fault = true ∧ (writes 0x003 faulted).hostQueue = .write 0x00 8 0x003 :: [] := by decide
theorem witness_FaultedUnitRefusesCommands_write :
    ∃ t, hostStep (.write 0x18 8 5) { faulted with fault := false } = .next t := ⟨_, rfl⟩
theorem witness_FaultedUnitRefusesCommands_read :
    ∃ t, hostStep (.read 0x50 8) { faulted with fault := false } = .next t := ⟨_, rfl⟩
theorem witness_ResetLeavesResetValues : (next .reset faulted).hostQueue = .reset :: [] := by decide
theorem witness_ResetStateIsGood_least : 11 ≤ 11 ∧ 11 ≤ 128 := by decide
theorem witness_ResetStateIsGood_most : 11 ≤ 128 ∧ 128 ≤ 128 := by decide
theorem witness_NoStepChangesIbufCap : ∃ t, step (next .reset (State.resetWith 11)) = .next t := ⟨_, rfl⟩
theorem witness_StepKeepsGood_11 :
    (next (.write 0x28 8 16) (State.resetWith 11)).good = true ∧
      ∃ t, step (next (.write 0x28 8 16) (State.resetWith 11)) = .next t := ⟨by decide, _, rfl⟩
theorem witness_StepKeepsGood :
    (next (.write 0x8F 1 0xFF) (input [0x83])).good = true ∧
      ∃ t, step (next (.write 0x8F 1 0xFF) (input [0x83])) = .next t := ⟨by decide, _, rfl⟩
theorem witness_FaultLastsUntilReset :
    ∃ t, { faulted with hostQueue := hostCmd .spcEnc ++ hostGet .outData ++ [HostOp.reset] }.fault = true ∧
      HostOp.reset ∉
        { faulted with hostQueue := hostCmd .spcEnc ++ hostGet .outData ++ [HostOp.reset] }.hostQueue.take 2 ∧
      Host.Core.run core 2 { faulted with hostQueue := hostCmd .spcEnc ++ hostGet .outData ++ [HostOp.reset] } =
        .next t :=
  ⟨_, by decide, by decide, rfl⟩
theorem witness_FaultComesOnlyFromDpRange :
    ∃ t, (writes 0x205 (args 12050 0 false 16)).fault = false ∧
      step (writes 0x205 (args 12050 0 false 16)) = .next t ∧ t.fault = true := ⟨_, rfl, rfl, by decide⟩
theorem witness_FailedCommandChangesOnlyStatus :
    ∃ t, (writes 0x042 (input [0x08])).hostQueue = .write 0x00 8 0x042 :: [] ∧
      step (writes 0x042 (input [0x08])) = .next t ∧ t.accept = false := ⟨_, rfl, rfl, by decide⟩
theorem witness_CommandsNeverWriteOperands : ∃ t, exec .numDecSd (input [0xF3, 0x92, 0x5E]) = .next t := ⟨_, rfl⟩
theorem witness_ZeroStatusPairMeansDeclined_declined :
    ∃ t, exec .numEncUi (args 5 0 false 0) = .next t ∧ t.accept = false ∧ t.err = 0 := ⟨_, rfl, by decide⟩
theorem witness_ZeroStatusPairMeansDeclined_committed :
    ∃ t, exec .numEncUi (args 123 0 false 0) = .next t ∧ t.accept = true := ⟨_, rfl, by decide⟩
theorem witness_IdleUnitWaits : State.reset.hostQueue = [] := rfl
theorem witness_WindowIsAtZcuBase :
    Config.zcuBase + 256 < Config.zcuBase ∨ Config.zcuBase + 256 ≤ Config.zcuBase + 256 := .inr (Nat.le_refl _)
theorem witness_RegisterReadReturnsItsFields_outLen :
    (next (.read 0x48 8) { State.reset with out := [1, 2] }).hostQueue = .read Reg.outLen.offset 8 :: [] ∧
      (next (.read 0x48 8) { State.reset with out := [1, 2] }).out.length < 2 ^ 64 := by decide
theorem witness_RegisterReadReturnsItsFields_ibufLen :
    (next (.read 0x28 8) (input [0x83])).hostQueue = .read Reg.ibufLen.offset 8 :: [] ∧ Reg.ibufLen ≠ .outLen ∧
      (next (.read 0x28 8) (input [0x83])).good = true := by decide
theorem witness_RegisterReadReturnsItsFields_outData :
    (next (.read 0x50 8) State.reset).hostQueue = .read Reg.outData.offset 8 :: [] ∧ Reg.outData ≠ .outLen ∧ Reg.outData ≠ .ibufLen := by
  decide
theorem witness_DrainReturnsOutInOrder :
    { State.reset with out := [0xF3, 0x92], hostQueue := hostDrain 3 }.hostQueue =
      hostDrain ({ State.reset with out := [0xF3, 0x92], hostQueue := hostDrain 3 }.out.length + 1) ++ [] := by decide
theorem witness_ReadOnlyRegistersIgnoreWrites_first :
    Reg.status ∈ [Reg.status, .resValue, .resLen, .resAux, .outLen, .outData] ∧
      (next (.write 0x08 8 1) faulted).hostQueue = .write Reg.status.offset 8 1 :: [] := by decide
theorem witness_ReadOnlyRegistersIgnoreWrites_last :
    Reg.outData ∈ [Reg.status, .resValue, .resLen, .resAux, .outLen, .outData] ∧
      (next (.write 0x50 8 1) faulted).hostQueue = .write Reg.outData.offset 8 1 :: [] := by decide
theorem witness_ReadOnlyRegistersIgnoreWrites_argAux :
    { State.reset with hostQueue := [.write 0x20 8 0xFFFFFFFFFFFFFFFF, .read 0x20 8] }.hostQueue =
      .write 0x20 8 0xFFFFFFFFFFFFFFFF :: .read 0x20 8 :: [] := by decide
theorem witness_ReadOnlyRegistersIgnoreWrites_others :
    ∃ t, HostOp.write 0x28 8 17 ≠ .reset ∧ (∀ n w, HostOp.write 0x28 8 17 ≠ .write 0x00 n w) ∧
      (∀ n, HostOp.write 0x28 8 17 ≠ .read 0x50 n) ∧ hostStep (.write 0x28 8 17) faulted = .next t :=
  ⟨_, by simp, by simp, by simp, rfl⟩
theorem witness_ArgumentWritesStoreTheirValue :
    (next (.write 0x10 8 0xFFFFFFFFFFFFFFFF) State.reset).hostQueue = .write 0x10 8 0xFFFFFFFFFFFFFFFF :: [] ∧
    (next (.write 0x18 8 0) State.reset).hostQueue = .write 0x18 8 0 :: [] ∧
    (next (.write 0x20 8 0xFFFFFFFFFFFFFFFF) State.reset).hostQueue = .write 0x20 8 0xFFFFFFFFFFFFFFFF :: [] ∧
    (next (.write 0x28 8 17) State.reset).hostQueue = .write 0x28 8 17 :: [] := by decide
theorem witness_IbufAccessesReachOneByte_write :
    15 < (next (.write 0x8F 1 0x41) (input [0x83])).ibufCap ∧ (next (.write 0x8F 1 0x41) (input [0x83])).ibufCap ≤ 128 ∧
      (next (.write 0x8F 1 0x41) (input [0x83])).hostQueue =
      .write (BitVec.ofNat 8 (0x80 + 15)) 1 ((0x41 : Byte).setWidth 64) :: [] ∧
      Memory.wf 16 (next (.write 0x8F 1 0x41) (input [0x83])).ibuf = true := by decide
theorem witness_IbufAccessesReachOneByte_read :
    0 < (next (.read 0x80 1) (input [0x83])).ibufCap ∧ (next (.read 0x80 1) (input [0x83])).ibufCap ≤ 128 ∧
      (next (.read 0x80 1) (input [0x83])).hostQueue = .read (BitVec.ofNat 8 (0x80 + 0)) 1 :: [] := by decide
theorem witness_IbufAccessesReachOneByte_128 :
    127 < (next (.read 0xFF 1) (State.resetWith 128)).ibufCap ∧
      (next (.read 0xFF 1) (State.resetWith 128)).ibufCap ≤ 128 ∧
      (next (.read 0xFF 1) (State.resetWith 128)).hostQueue = .read (BitVec.ofNat 8 (0x80 + 127)) 1 :: [] := by decide
theorem witness_CanonicalMemoriesAreEqual :
    Memory.wf 16 [(0x80, 1), (0x8F, 2)] = true ∧
      ∀ a, Memory.read [(0x80, 1), (0x8F, 2)] a = Memory.read [(0x80, 1), (0x8F, 2)] a := ⟨by decide, fun _ => rfl⟩
theorem witness_PlainAccessesAreIdempotent_read :
    ∃ t, (0x48 : BitVec 8) ≠ 0x50 ∧ hostStep (.read 0x48 8) State.reset = .next t := ⟨_, by decide, rfl⟩
theorem witness_PlainAccessesAreIdempotent_write :
    ∃ t, (0x80 : BitVec 8) ≠ 0x00 ∧ hostStep (.write 0x80 1 0) (input [0x83]) = .next t := ⟨_, by decide, rfl⟩
theorem witness_LoadPlacesItsBytes_full :
    (List.replicate 16 (0x41 : Byte)).length ≤ State.reset.ibufCap ∧ State.reset.ibufCap ≤ 128 ∧
      { State.reset with hostQueue := hostLoad (List.replicate 16 0x41) }.hostQueue =
        hostLoad (List.replicate 16 0x41) ++ [] := by decide
theorem witness_LoadPlacesItsBytes_empty :
    ([] : List Byte).length ≤ (input [0x83]).ibufCap ∧ (input [0x83]).ibufCap ≤ 128 ∧
      { input [0x83] with hostQueue := hostLoad [] }.hostQueue = hostLoad [] ++ [] := by
  decide

theorem witness_VleEncCommits : (args 12050 0xA0 false 0).fault = false := rfl
theorem witness_VleDecCommits_r0 : (input [0x80, 0x01]).fault = false ∧ Spec.VleRun (input [0x80, 0x01]) 0 .r0 2 :=
  ⟨rfl, show Spec.LebRun _ _ _ _ by decide⟩
theorem witness_VleDecCommits_r1 : (input [0xE7, 0x02]).fault = false ∧
    Spec.VleRun (input [0xE7, 0x02]) 0 .r1 2 :=
  ⟨rfl, by decide, by decide, by decide⟩
theorem witness_VleDecCommits_r4 : (input [0x07, 0xAA]).fault = false ∧
    Spec.VleRun (input [0x07, 0xAA]) 0 .r4 1 :=
  ⟨rfl, show Spec.SharedRun _ _ _ _ by decide⟩
theorem witness_VleDecCommits_r5 : (input [0xF4, 0x01]).fault = false ∧
    Spec.VleRun (input [0xF4, 0x01]) 0 .r5 2 :=
  ⟨rfl, show Spec.SharedRun _ _ _ _ by decide⟩
theorem witness_VleDecCommits_r6 : (input [0x3F, 0xFF, 0xFF, 0xFF, 0xFF, 0xFF, 0xFF, 0xFF, 0xFF, 0x07]).fault = false ∧
    Spec.VleRun (input [0x3F, 0xFF, 0xFF, 0xFF, 0xFF, 0xFF, 0xFF, 0xFF, 0xFF, 0x07]) 0 .r6 10 :=
  ⟨rfl, show Spec.SharedRun _ _ _ _ by decide⟩
theorem witness_VleDecRaises_offset : (input [0x01, 0xFF, 0xFF, 0xFF, 0xFF, 0xFF, 0xFF, 0xFF, 0xFF, 0xFF]).fault = false ∧
    Spec.VleStops (input [0x01, 0xFF, 0xFF, 0xFF, 0xFF, 0xFF, 0xFF, 0xFF, 0xFF, 0xFF]) 0 .r1 9 3 :=
  ⟨rfl, .inr ⟨by decide, by decide, .inl (by decide)⟩⟩
theorem witness_VleDecRaises_read : (input [0x08]).fault = false ∧
    Spec.VleStops (input [0x08]) 0 .r4 0 2 :=
  ⟨rfl, .inr ⟨by decide, by decide, by decide, .inr (.inl (by decide))⟩⟩
theorem witness_VleDecRaises_first_byte : (input []).fault = false ∧
    Spec.VleStops (input []) 0 .r6 0 2 :=
  ⟨rfl, .inl (by decide)⟩
theorem witness_VleDecRaises_chunk : (input [0xFF, 0xFF, 0xFF, 0xFF, 0xFF, 0xFF, 0xFF, 0xFF, 0xFF, 0x02]).fault = false ∧
    Spec.VleStops (input [0xFF, 0xFF, 0xFF, 0xFF, 0xFF, 0xFF, 0xFF, 0xFF, 0xFF, 0x02]) 0 .r0 9 3 :=
  ⟨rfl, by decide, .inr (.inr (by decide))⟩
theorem witness_EveryVleInputDecodesOrStops : (input []).fault = false := rfl
theorem witness_VleRoundTrip :
    (vleEncode 12050 .r6 0xA0).length ≤ (input [0xB2, 0xF8, 0x02, 0x99]).ibufLen ∧
      (∀ i (h : i < (vleEncode 12050 .r6 0xA0).length),
        ibufByte (input [0xB2, 0xF8, 0x02, 0x99]) i = (vleEncode 12050 .r6 0xA0)[i]) ∧
      (input [0xB2, 0xF8, 0x02, 0x99]).fault = false := by decide
theorem witness_InputBeyondLengthIsNotRead :
    (∀ k, k < (input [0xF3]).ibufLen →
      Memory.read (input [0xF3, 0x92, 0x5E]).ibuf (0x80 + k) = Memory.read (input [0xF3]).ibuf (0x80 + k)) ∧
      ∃ t, exec .numDecSd (input [0xF3]) = .next t := ⟨by decide, _, rfl⟩
theorem witness_BytesAfterTheTokenAreNotRead :
    ∃ t, exec .vleDecR6 (input [0xFB, 0x03]) = .next t ∧ t.accept = true ∧ t.resLen.toNat ≤ 16 ∧
      ∀ k, k < t.resLen.toNat → Memory.read (input [0xFB, 0x03, 0x41]).ibuf (0x80 + k) =
        Memory.read (input [0xFB, 0x03]).ibuf (0x80 + k) := ⟨_, rfl, by decide, by decide, by decide⟩

theorem witness_SpcEncCommits : State.reset.fault = false := rfl
theorem witness_SpcDecCommits_none : (input [0x80]).fault = false ∧

    0 < (input [0x80]).ibufLen ∧ (ibufByte (input [0x80]) 0).toNat / 64 = 2 :=
  ⟨rfl, by decide⟩
theorem witness_SpcDecCommits_most : (input [0xBF]).fault = false ∧

    0 < (input [0xBF]).ibufLen ∧ (ibufByte (input [0xBF]) 0).toNat / 64 = 2 :=
  ⟨rfl, by decide⟩
theorem witness_SpcDecRaises_read : (input []).fault = false ∧ (input []).ibufLen = 0 := by decide
theorem witness_SpcDecRaises_below : (input [0x7F]).fault = false ∧

    0 < (input [0x7F]).ibufLen ∧ (ibufByte (input [0x7F]) 0).toNat / 64 ≠ 2 :=
  ⟨rfl, by decide⟩
theorem witness_SpcDecRaises_above : (input [0xC0]).fault = false ∧

    0 < (input [0xC0]).ibufLen ∧ (ibufByte (input [0xC0]) 0).toNat / 64 ≠ 2 :=
  ⟨rfl, by decide⟩
theorem witness_SingleSpaceIsLiteral : 0x81#8 ∈ spaceEncode 64 := by decide
theorem witness_SpaceRoundTrip : State.reset.fault = false := rfl

theorem witness_NumEncCommits_ui : (args 31 0 false 0).fault = false ∧
    (args 31 0 false 0).argDp.toNat ≤ 15 ∧ Spec.representable .ui false 0 ∧
    ¬ Spec.declined .ui (args 31 0 false 0).argValue.toNat false 0 :=
  ⟨rfl, by
  simp [Spec.representable, Spec.declined, args]⟩
theorem witness_NumEncCommits_si : (args 0 0 true 0).fault = false ∧
    (args 0 0 true 0).argDp.toNat ≤ 15 ∧ Spec.representable .si true 0 ∧
    ¬ Spec.declined .si (args 0 0 true 0).argValue.toNat true 0 :=
  ⟨rfl, by
  simp [Spec.representable, Spec.declined, args]⟩
theorem witness_NumEncCommits_ud : (args 0 0 false 15).fault = false ∧
    (args 0 0 false 15).argDp.toNat ≤ 15 ∧ Spec.representable .ud false 15 ∧
    ¬ Spec.declined .ud (args 0 0 false 15).argValue.toNat false 15 :=
  ⟨rfl, by
  simp [Spec.representable, Spec.declined, args]⟩
theorem witness_NumEncCommits_sd : (args 100 0 true 0).fault = false ∧
    (args 100 0 true 0).argDp.toNat ≤ 15 ∧ Spec.representable .sd true 0 ∧
    ¬ Spec.declined .sd (args 100 0 true 0).argValue.toNat true 0 :=
  ⟨rfl, by
  simp [Spec.representable, Spec.declined, args]⟩
theorem witness_NumEncDeclines_ui : (args 32 0 false 0).fault = false ∧
    (args 32 0 false 0).argDp.toNat ≤ 15 ∧ Spec.representable .ui false 0 ∧
    Spec.declined .ui (args 32 0 false 0).argValue.toNat false 0 :=
  ⟨rfl, by
  simp [Spec.representable, Spec.declined, args]⟩
theorem witness_NumEncDeclines_si : (args 99 0 false 0).fault = false ∧
    (args 99 0 false 0).argDp.toNat ≤ 15 ∧ Spec.representable .si false 0 ∧
    Spec.declined .si (args 99 0 false 0).argValue.toNat false 0 :=
  ⟨rfl, by simp [Spec.representable, Spec.declined, args]⟩
theorem witness_NumEncDeclines_ud : (args 0 0 false 0).fault = false ∧
    (args 0 0 false 0).argDp.toNat ≤ 15 ∧ Spec.representable .ud false 0 ∧
    Spec.declined .ud (args 0 0 false 0).argValue.toNat false 0 :=
  ⟨rfl, by simp [Spec.representable, Spec.declined, args]⟩
theorem witness_NumEncDeclines_sd : (args 99 0 true 0).fault = false ∧
    (args 99 0 true 0).argDp.toNat ≤ 15 ∧ Spec.representable .sd true 0 ∧
    Spec.declined .sd (args 99 0 true 0).argValue.toNat true 0 :=
  ⟨rfl, by
  simp [Spec.representable, Spec.declined, args]⟩
theorem witness_NumEncChecksOperands_range : (args 5 0 true 16).fault = false ∧ 15 < (args 5 0 true 16).argDp.toNat := by
  decide
theorem witness_NumEncChecksOperands_mode : (args 5 0 false 15).fault = false ∧

    (args 5 0 false 15).argDp.toNat ≤ 15 ∧ ¬ Spec.representable .si false (args 5 0 false 15).argDp.toNat :=
  ⟨rfl, by
  simp [Spec.representable, args]⟩
theorem witness_NumDecCommits_ui : (input [0xFB, 0x03]).fault = false ∧
    Spec.leadByte (input [0xFB, 0x03]) ∧
    Spec.layout .ui (ibufByte (input [0xFB, 0x03]) 0).toNat = (.r6, 0, false, 0) ∧
    Spec.VleRun (input [0xFB, 0x03]) 0 .r6 2 :=
  ⟨rfl, by decide, rfl, show Spec.SharedRun _ _ _ _ by decide⟩
theorem witness_NumDecCommits_si : (input [0xE0]).fault = false ∧
    Spec.leadByte (input [0xE0]) ∧
    Spec.layout .si (ibufByte (input [0xE0]) 0).toNat = (.r5, 0, true, 0) ∧
    Spec.VleRun (input [0xE0]) 0 .r5 1 :=
  ⟨rfl, by decide, by decide, show Spec.SharedRun _ _ _ _ by decide⟩
theorem witness_NumDecCommits_ud : (input [0xFF, 0x00]).fault = false ∧
    Spec.leadByte (input [0xFF, 0x00]) ∧
    Spec.layout .ud (ibufByte (input [0xFF, 0x00]) 0).toNat = (.r1, 0, false, 15) ∧
    Spec.VleRun (input [0xFF, 0x00]) 0 .r1 2 :=
  ⟨rfl, by decide, by decide, by decide, by decide, by decide⟩
theorem witness_NumDecCommits_ud_no_places : (input [0xD5]).fault = false ∧
    Spec.leadByte (input [0xD5]) ∧
    Spec.layout .ud (ibufByte (input [0xD5]) 0).toNat = (.r4, 0, false, 0) ∧
    Spec.VleRun (input [0xD5]) 0 .r4 1 :=
  ⟨rfl, by decide, by decide, show Spec.SharedRun _ _ _ _ by decide⟩
theorem witness_NumDecCommits_sd : (input [0xF3, 0x92, 0x5E]).fault = false ∧
    Spec.leadByte (input [0xF3, 0x92, 0x5E]) ∧
    Spec.layout .sd (ibufByte (input [0xF3, 0x92, 0x5E]) 0).toNat = (.r0, 1, true, 3) ∧
    Spec.VleRun (input [0xF3, 0x92, 0x5E]) 1 .r0 2 :=
  ⟨rfl, by decide, by decide, show Spec.LebRun _ _ _ _ by decide⟩
theorem witness_NumDecCommits_sd_no_places : (input [0xEC, 0x0C]).fault = false ∧
    Spec.leadByte (input [0xEC, 0x0C]) ∧
    Spec.layout .sd (ibufByte (input [0xEC, 0x0C]) 0).toNat = (.r4, 0, true, 0) ∧
    Spec.VleRun (input [0xEC, 0x0C]) 0 .r4 2 :=
  ⟨rfl, by decide, by decide, show Spec.SharedRun _ _ _ _ by decide⟩
theorem witness_NumDecRaises_read : (input []).fault = false ∧ (input []).ibufLen = 0 := by decide
theorem witness_NumDecRaises_tag : (input [0xBF]).fault = false ∧

    0 < (input [0xBF]).ibufLen ∧ (ibufByte (input [0xBF]) 0).toNat / 64 ≠ 3 :=
  ⟨rfl, by decide⟩
theorem witness_NumDecRaises_magnitude : (input [0xD3, 0x80]).fault = false ∧
    Spec.leadByte (input [0xD3, 0x80]) ∧
    Spec.layout .sd (ibufByte (input [0xD3, 0x80]) 0).toNat = (.r0, 1, false, 3) ∧
    Spec.VleStops (input [0xD3, 0x80]) 1 .r0 1 2 :=
  ⟨rfl, by decide, by decide, by decide, .inr (.inl (by decide))⟩
theorem witness_NumPayloadRoundTrip :
    ∃ t, exec .numEncSd (args 12050 0 true 3) = .next t ∧ t.accept = true ∧
      t.out = (args 12050 0 true 3).out ++ [0xF3, 0x92, 0x5E] ∧
      (input [0xF3, 0x92, 0x5E, 0x41]).fault = false ∧
      [(0xF3 : Byte), 0x92, 0x5E].length ≤ (input [0xF3, 0x92, 0x5E, 0x41]).ibufLen ∧
      ∀ i (h : i < [(0xF3 : Byte), 0x92, 0x5E].length),
        ibufByte (input [0xF3, 0x92, 0x5E, 0x41]) i = [(0xF3 : Byte), 0x92, 0x5E][i] :=
  ⟨_, rfl, by decide, by decide, by decide, by decide, by decide⟩
theorem witness_TextRoundTrip_zero_whole :
    (∀ d ∈ [0] ++ [0, 0, 5], d < 10) ∧ (([0] = [0] ∧ [0, 0, 5] ≠ []) ∨ ([0] ≠ [] ∧ [0].head? ≠ some 0)) ∧
      [0, 0, 5].length ≤ 15 ∧ Spec.decimalValue ([0] ++ [0, 0, 5]) < 2 ^ 64 := by decide
theorem witness_TextRoundTrip_no_fraction :
    (∀ d ∈ [9, 9] ++ [], d < 10) ∧ (([9, 9] = [0] ∧ ([] : List Nat) ≠ []) ∨ ([9, 9] ≠ [] ∧ [9, 9].head? ≠ some 0)) ∧
      ([] : List Nat).length ≤ 15 ∧ Spec.decimalValue ([9, 9] ++ []) < 2 ^ 64 := by decide
theorem witness_TextRoundTrip_machine :
    ∃ t, (∀ d ∈ [1, 2] ++ [0, 5, 0], d < 10) ∧ [1, 2] ≠ [] ∧ [1, 2].head? ≠ some 0 ∧ [0, 5, 0].length ≤ 15 ∧
      Spec.decimalValue ([1, 2] ++ [0, 5, 0]) < 2 ^ 64 ∧
      (args 12050 0 true 3).argValue.toNat = Spec.decimalValue ([1, 2] ++ [0, 5, 0]) ∧
      (args 12050 0 true 3).argNeg = true ∧ (args 12050 0 true 3).argDp.toNat = [0, 5, 0].length ∧
      exec .numEncSd (args 12050 0 true 3) = .next t ∧ t.accept = true ∧
      t.out = (args 12050 0 true 3).out ++ [0xF3, 0x92, 0x5E] ∧
      (input [0xF3, 0x92, 0x5E]).fault = false ∧
      [(0xF3 : Byte), 0x92, 0x5E].length ≤ (input [0xF3, 0x92, 0x5E]).ibufLen ∧
      ∀ i (h : i < [(0xF3 : Byte), 0x92, 0x5E].length),
        ibufByte (input [0xF3, 0x92, 0x5E]) i = [(0xF3 : Byte), 0x92, 0x5E][i] :=
  ⟨_, by decide, by decide, by decide, by decide, by decide, by decide, rfl, by decide, rfl, by decide, by decide,
    rfl, by decide, by decide⟩
theorem witness_TextIsShort : (Spec.decimalDigits (5 : Word).toNat).length ≤ (15 : BitVec 4).toNat := by
  simp [Spec.decimalDigits]
theorem witness_TokenIsShort : (1 : Byte) ≠ 0 ∧ (State.resetWith 11).good = true := by decide
theorem witness_SignAndPointFollowTheMode :
    ∃ t, exec .numDecUi (input [0xCA]) = .next t ∧ t.accept = true ∧ t.out = (input [0xCA]).out ++ [0x31, 0x30] :=
  ⟨_, rfl, by decide, by decide⟩

end Sys2Proof.Tests
end

/-! ### What every step keeps: the errors a command can raise, the ending of a command, the parameter IBUF_CAP and the
invariant `State.good` -/

namespace Sys2Proof.Machine

/-! The errors each command can raise. -/

theorem endingOf_eq_raise {d : Except ErrCode (List Byte × Results)} {e : ErrCode} :
    endingOf d = .raise e ↔ d = .error e := by
  cases d <;> simp [endingOf]

theorem except_map_eq_error {α β : Type} {f : α → β} {x : Except ErrCode α} {e : ErrCode} :
    x.map f = .error e ↔ x = .error e := by
  cases x <;> simp [Except.map]

theorem endingEmit_ne_raise (emitted : List Byte) (e : ErrCode) : endingEmit emitted ≠ .raise e := by
  simp [endingEmit]

theorem inByte_eq_error {s : State} {i : Nat} {e : ErrCode} :
    inByte s i = .error e ↔ s.ibufLen ≤ i ∧ e = .trunc := by
  rcases Nat.lt_or_ge i s.ibufLen with h | h
  · simp [inByte_inside h, h]
  · simp [inByte_beyond h, h, eq_comm]

theorem lebDecodeFrom_error {s : State} {pos d fuel k : Nat} {acc : Word} {e : ErrCode}
    (h : lebDecodeFrom s pos d fuel k acc = .error e) : e = .trunc ∨ e = .overlong := by
  induction fuel generalizing k acc with
  | zero => exact .inr (Except.error.inj h).symm
  | succ fuel ih =>
    simp only [lebDecodeFrom] at h
    split at h
    · exact .inr (Except.error.inj h).symm
    · split at h
      next e' hread =>
        cases h
        exact .inl (inByte_eq_error.1 hread).2
      next b hread =>
        split at h
        · exact .inr (Except.error.inj h).symm
        · split at h
          · exact ih h
          · cases h

theorem vleDecodeShared_error {s : State} {base r : Nat} {e : ErrCode}
    (h : vleDecodeShared s base r = .error e) : e = .trunc ∨ e = .overlong := by
  simp only [vleDecodeShared] at h
  split at h
  next e' hread =>
    cases h
    exact .inl (inByte_eq_error.1 hread).2
  next b0 hread =>
    split at h
    · exact lebDecodeFrom_error (except_map_eq_error.1 h)
    · cases h

theorem vleDecodeOne_error {s : State} {base : Nat} {e : ErrCode}
    (h : vleDecodeOne s base = .error e) : e = .trunc ∨ e = .overlong := by
  simp only [vleDecodeOne] at h
  split at h
  next e' hread =>
    cases h
    exact .inl (inByte_eq_error.1 hread).2
  next b0 hread => exact lebDecodeFrom_error (except_map_eq_error.1 h)

/-- R111, R206: reading a VLE sequence stops with TRUNC or OVERLONG only. -/
theorem vleDecode_error {s : State} {base : Nat} {r : Reserved} {e : ErrCode}
    (h : vleDecode s base r = .error e) : e = .trunc ∨ e = .overlong := by
  cases r with
  | r0 => exact lebDecodeFrom_error h
  | r1 => exact vleDecodeOne_error h
  | r4 => exact vleDecodeShared_error h
  | r5 => exact vleDecodeShared_error h
  | r6 => exact vleDecodeShared_error h

theorem spaceDecode_error {b : Byte} {e : ErrCode} (h : spaceDecode b = .error e) : e = .badTag := by
  unfold spaceDecode at h
  split at h <;> cases h <;> rfl

theorem numDecode_error {m : Mode} {s : State} {e : ErrCode} (h : numDecode m s = .error e) :
    e = .trunc ∨ e = .overlong ∨ e = .badTag := by
  unfold numDecode at h
  split at h
  next e' hread =>
    cases h
    exact .inl (inByte_eq_error.1 hread).2
  next b0 hread =>
    split at h
    · exact .inr (.inr (Except.error.inj h).symm)
    · exact .inr (.inr (Except.error.inj h).symm)
    · rcases vleDecode_error (except_map_eq_error.1 h) with he | he
      · exact .inl he
      · exact .inr (.inl he)

theorem vleEncCommand_ne_raise (r : Reserved) (s : State) (e : ErrCode) : vleEncCommand r s ≠ .raise e :=
  endingEmit_ne_raise _ e

theorem vleDecCommand_raise {r : Reserved} {s : State} {e : ErrCode} (h : vleDecCommand r s = .raise e) :
    e = .trunc ∨ e = .overlong :=
  vleDecode_error (except_map_eq_error.1 (endingOf_eq_raise.1 h))

theorem spcEncCommand_ne_raise (s : State) (e : ErrCode) : spcEncCommand s ≠ .raise e :=
  endingEmit_ne_raise _ e

theorem spcDecCommand_raise {s : State} {e : ErrCode} (h : spcDecCommand s = .raise e) :
    e = .trunc ∨ e = .badTag := by
  have hread := endingOf_eq_raise.1 h
  split at hread
  next e' he' =>
    cases hread
    exact .inl (inByte_eq_error.1 he').2
  next b hb => exact .inr (spaceDecode_error hread)

/-- R153: NUM.ENC raises for its operands alone, and DPRANGE only for a decimal-place count above DP_MAX. -/
theorem numEncCommand_raise {m : Mode} {s : State} {e : ErrCode} (h : numEncCommand m s = .raise e) :
    (e = .dpRange ∧ Config.dpMax < s.argDp.toNat) ∨ e = .operand := by
  unfold numEncCommand at h
  split at h
  next hdp => exact .inl ⟨(Ending.raise.inj h).symm, hdp⟩
  next =>
    split at h
    · exact .inr (Ending.raise.inj h).symm
    · split at h
      · cases h
      · exact absurd h (endingEmit_ne_raise _ e)

theorem numDecCommand_raise {m : Mode} {s : State} {e : ErrCode} (h : numDecCommand m s = .raise e) :
    e = .trunc ∨ e = .overlong ∨ e = .badTag :=
  numDecode_error (except_map_eq_error.1 (endingOf_eq_raise.1 h))

/-- R76: the commands by the row families of the opcode table. -/
theorem instr_family (i : Instr) :
    (∃ r, i = .vleEnc r) ∨ (∃ r, i = .vleDec r) ∨ i = .spcEnc ∨ i = .spcDec ∨
      (∃ m, i = .numEnc m) ∨ ∃ m, i = .numDec m := by
  cases i with
  | vleEncR0 => exact .inl ⟨.r0, rfl⟩
  | vleEncR1 => exact .inl ⟨.r1, rfl⟩
  | vleEncR4 => exact .inl ⟨.r4, rfl⟩
  | vleEncR5 => exact .inl ⟨.r5, rfl⟩
  | vleEncR6 => exact .inl ⟨.r6, rfl⟩
  | vleDecR0 => exact .inr (.inl ⟨.r0, rfl⟩)
  | vleDecR1 => exact .inr (.inl ⟨.r1, rfl⟩)
  | vleDecR4 => exact .inr (.inl ⟨.r4, rfl⟩)
  | vleDecR5 => exact .inr (.inl ⟨.r5, rfl⟩)
  | vleDecR6 => exact .inr (.inl ⟨.r6, rfl⟩)
  | spcEnc => exact .inr (.inr (.inl rfl))
  | spcDec => exact .inr (.inr (.inr (.inl rfl)))
  | numEncUi => exact .inr (.inr (.inr (.inr (.inl ⟨.ui, rfl⟩))))
  | numEncSi => exact .inr (.inr (.inr (.inr (.inl ⟨.si, rfl⟩))))
  | numEncUd => exact .inr (.inr (.inr (.inr (.inl ⟨.ud, rfl⟩))))
  | numEncSd => exact .inr (.inr (.inr (.inr (.inl ⟨.sd, rfl⟩))))
  | numDecUi => exact .inr (.inr (.inr (.inr (.inr ⟨.ui, rfl⟩))))
  | numDecSi => exact .inr (.inr (.inr (.inr (.inr ⟨.si, rfl⟩))))
  | numDecUd => exact .inr (.inr (.inr (.inr (.inr ⟨.ud, rfl⟩))))
  | numDecSd => exact .inr (.inr (.inr (.inr (.inr ⟨.sd, rfl⟩))))

@[simp] theorem bodyOf_vleEnc (r : Reserved) : bodyOf (.vleEnc r) = vleEncCommand r := by cases r <;> rfl
@[simp] theorem bodyOf_vleDec (r : Reserved) : bodyOf (.vleDec r) = vleDecCommand r := by cases r <;> rfl
@[simp] theorem bodyOf_spcEnc : bodyOf .spcEnc = spcEncCommand := rfl
@[simp] theorem bodyOf_spcDec : bodyOf .spcDec = spcDecCommand := rfl
@[simp] theorem bodyOf_numEnc (m : Mode) : bodyOf (.numEnc m) = numEncCommand m := by cases m <;> rfl
@[simp] theorem bodyOf_numDec (m : Mode) : bodyOf (.numDec m) = numDecCommand m := by cases m <;> rfl

/-- R200, R206: what a command raises once it runs. TRUNC, OVERLONG and BADTAG come from its input; OPERAND and DPRANGE
from NUM.ENC's operands. -/
theorem bodyOf_raise {i : Instr} {s : State} {e : ErrCode} (h : bodyOf i s = .raise e) :
    (e = .trunc ∨ e = .overlong ∨ e = .badTag) ∨
      ∃ m, i = .numEnc m ∧ ((e = .dpRange ∧ Config.dpMax < s.argDp.toNat) ∨ e = .operand) := by
  rcases instr_family i with ⟨r, rfl⟩ | ⟨r, rfl⟩ | rfl | rfl | ⟨m, rfl⟩ | ⟨m, rfl⟩
  · rw [bodyOf_vleEnc] at h
    exact absurd h (vleEncCommand_ne_raise r s e)
  · rw [bodyOf_vleDec] at h
    rcases vleDecCommand_raise h with he | he <;> simp [he]
  · exact absurd h (spcEncCommand_ne_raise s e)
  · rcases spcDecCommand_raise h with he | he <;> simp [he]
  · rw [bodyOf_numEnc] at h
    exact .inr ⟨m, rfl, numEncCommand_raise h⟩
  · rw [bodyOf_numDec] at h
    exact .inl (numDecCommand_raise h)

/-- R205: no command reports FAULTED of its own. -/
theorem bodyOf_ne_raise_faulted (i : Instr) (s : State) : bodyOf i s ≠ .raise .faulted := fun h => by
  simpa using bodyOf_raise h

/-! The ending of a command, and what it leaves alone. -/

/-- A command ends the run in one of its three ways, and is refused as FAULTED exactly while FAULT is set (R205). -/
theorem exec_eq_finish (i : Instr) (s : State) :
    ∃ e, (e = .raise .faulted ↔ s.fault = true) ∧ exec i s = .next (finish e s) := by
  rw [exec_eq_runCommand]
  cases hf : s.fault with
  | true => exact ⟨.raise .faulted, by simp, runCommand_faulted _ s hf⟩
  | false => exact ⟨bodyOf i s, by simpa using bodyOf_ne_raise_faulted i s, runCommand_ready _ s hf⟩

/-- A word that is no command ends as a raise, of FAULTED exactly while FAULT is set (R74, R205). -/
theorem illegalCommand_eq_finish (s : State) :
    ∃ e, (e = .raise .faulted ↔ s.fault = true) ∧ illegalCommand s = finish e s := by
  cases hf : s.fault with
  | true => exact ⟨.raise .faulted, by simp, by simp [illegalCommand, hf, finish]⟩
  | false => exact ⟨.raise .illegal, by simp, by simp [illegalCommand, hf, finish]⟩

/-- A write to CMD ends in its step, whatever the word (R22, R55). -/
theorem runWord_eq_finish (w : Word) (s : State) :
    ∃ e, (e = .raise .faulted ↔ s.fault = true) ∧ runWord w s = .next (finish e { s with cmd := w }) := by
  rcases runWord_cases w s with ⟨i, -, hrun⟩ | ⟨why, -, hrun⟩
  · obtain ⟨e, he, hexec⟩ := exec_eq_finish i { s with cmd := w }
    exact ⟨e, he, hrun.trans hexec⟩
  · obtain ⟨e, he, hill⟩ := illegalCommand_eq_finish { s with cmd := w }
    exact ⟨e, he, by rw [hrun, hill]⟩

@[simp] theorem finish_ibuf (e : Ending) (s : State) : (finish e s).ibuf = s.ibuf := by cases e <;> rfl
@[simp] theorem finish_ibufLen (e : Ending) (s : State) : (finish e s).ibufLen = s.ibufLen := by cases e <;> rfl
@[simp] theorem finish_ibufCap (e : Ending) (s : State) : (finish e s).ibufCap = s.ibufCap := by cases e <;> rfl

/-! The parameter IBUF_CAP. -/

theorem runWord_keeps_ibufCap {w : Word} {s t : State} (h : runWord w s = .next t) : t.ibufCap = s.ibufCap := by
  obtain ⟨e, -, hrun⟩ := runWord_eq_finish w s
  cases hrun.symm.trans h
  simp

theorem hostStep_keeps_ibufCap {op : HostOp} {s t : State} (h : hostStep op s = .next t) : t.ibufCap = s.ibufCap := by
  rcases hostStep_cases h with ⟨-, rfl⟩ | ⟨off, n, l, -, -, rfl⟩ | ⟨off, n, v, -, -, hrun⟩ |
    ⟨off, n, v, r, -, -, -, rfl⟩ | ⟨off, n, v, a, -, -, rfl⟩
  case inr.inr.inl => exact runWord_keeps_ibufCap hrun
  all_goals simp

/-! The invariant. -/

theorem State.good_iff (s : State) : s.good = true ↔
    s.sizesLegal = true ∧ Memory.wf s.ibufCap s.ibuf = true ∧ s.statusCoherent = true := by
  simp [State.good, and_assoc]

theorem State.sizesLegal_iff (s : State) : s.sizesLegal = true ↔
    Config.ibufCapMin ≤ s.ibufCap ∧ s.ibufCap ≤ Config.ibufCapMax ∧ s.ibufLen ≤ s.ibufCap := by
  simp [State.sizesLegal, and_assoc]

/-- An ending leaves a coherent STATUS if it refuses exactly when FAULT is set: a commit or a decline is then one of an
unfaulted unit, and of the errors only DPRANGE sets FAULT (R24 to R26, R202, R205). -/
theorem statusCoherent_finish {e : Ending} {s : State} (he : e = .raise .faulted ↔ s.fault = true) :
    (finish e s).statusCoherent = true := by
  cases e with
  | commit p r =>
    have hf : s.fault = false := by simpa using he
    simp [finish, State.statusCoherent, hf]
  | decline =>
    have hf : s.fault = false := by simpa using he
    simp [finish, State.statusCoherent, hf]
  | raise c =>
    cases hf : s.fault with
    | true =>
      obtain rfl : c = .faulted := by simpa [hf] using he
      simp [finish, State.statusCoherent, hf, ErrCode.code]
    | false =>
      have hc : c ≠ .faulted := by simpa [hf] using he
      cases c <;> simp_all [finish, State.statusCoherent, ErrCode.code]

/-- Goodness speaks of IBUF, its sizes and STATUS alone, so a state that agrees with a good one there is good. -/
theorem State.good_congr {s t : State} (hs : s.good = true) (hcap : t.ibufCap = s.ibufCap)
    (hlen : t.ibufLen = s.ibufLen) (hibuf : t.ibuf = s.ibuf) (hstatus : t.statusCoherent = s.statusCoherent) :
    t.good = true := by
  simpa [State.good, State.sizesLegal, hcap, hlen, hibuf, hstatus] using hs

theorem resetWith_good {cap : Nat} (hmin : Config.ibufCapMin ≤ cap) (hmax : cap ≤ Config.ibufCapMax) :
    (State.resetWith cap).good = true := by
  have hsizes : (State.resetWith cap).sizesLegal = true := (State.sizesLegal_iff _).2 ⟨hmin, hmax, Nat.zero_le _⟩
  exact (State.good_iff _).2 ⟨hsizes, rfl, rfl⟩

theorem platformReset_good {s : State} (hs : s.good = true) : (platformReset s).good = true := by
  obtain ⟨hsizes, -, -⟩ := (State.good_iff s).1 hs
  obtain ⟨hmin, hmax, -⟩ := (State.sizesLegal_iff s).1 hsizes
  exact State.good_congr (resetWith_good hmin hmax) rfl rfl rfl rfl

theorem readEffect_good (l : Location) {s : State} (hs : s.good = true) : (readEffect l s).good = true := by
  by_cases hl : l = .reg .outData
  · subst hl
    exact State.good_congr hs rfl rfl rfl rfl
  · rwa [readEffect_plain l s hl]

theorem finish_good {e : Ending} {s : State} (hs : s.good = true) (he : e = .raise .faulted ↔ s.fault = true) :
    (finish e s).good = true := by
  obtain ⟨hsizes, hwf, -⟩ := (State.good_iff s).1 hs
  exact (State.good_iff _).2
    ⟨by simpa [State.sizesLegal] using hsizes, by simpa using hwf, statusCoherent_finish he⟩

theorem runWord_good {w : Word} {s t : State} (hs : s.good = true) (h : runWord w s = .next t) : t.good = true := by
  obtain ⟨e, he, hrun⟩ := runWord_eq_finish w s
  cases hrun.symm.trans h
  exact finish_good (s := { s with cmd := w }) (State.good_congr hs rfl rfl rfl rfl) he

/-- R30: of the register writes only IBUF_LEN's reaches what the invariant speaks of, and it stores at most IBUF_CAP. -/
theorem writeReg_good (r : Reg) (w : Word) {s : State} (hs : s.good = true) : (writeReg r w s).good = true := by
  obtain ⟨hsizes, hwf, hstatus⟩ := (State.good_iff s).1 hs
  obtain ⟨hmin, hmax, -⟩ := (State.sizesLegal_iff s).1 hsizes
  cases r with
  | ibufLen => exact (State.good_iff _).2 ⟨(State.sizesLegal_iff _).2 ⟨hmin, hmax, legalLen_le _ _⟩, hwf, hstatus⟩
  | argValue => exact State.good_congr hs rfl rfl rfl rfl
  | argCount => exact State.good_congr hs rfl rfl rfl rfl
  | argAux => exact State.good_congr hs rfl rfl rfl rfl
  | _ => exact hs

theorem writeIbuf_good {s : State} {a : Nat} (b : Byte) (hs : s.good = true) (hlo : Config.ibufBase ≤ a)
    (hhi : a < Config.ibufBase + s.ibufCap) : { s with ibuf := Memory.write s.ibuf a b }.good = true := by
  obtain ⟨hsizes, hwf, hstatus⟩ := (State.good_iff s).1 hs
  exact (State.good_iff _).2 ⟨hsizes, Memory.wf_write _ _ _ _ hwf hlo hhi, hstatus⟩

theorem locate_ibuf_bounds {cap : Nat} {off : BitVec 8} {n a : Nat} (h : locate cap off n = some (.ibuf a)) :
    Config.ibufBase ≤ a ∧ a < Config.ibufBase + cap := by
  rcases locate_cases h with ⟨-, r, -, hl⟩ | ⟨-, hlo, hhi, hl⟩
  · cases hl
  · cases hl
    exact ⟨hlo, hhi⟩

theorem hostStep_good {op : HostOp} {s t : State} (hs : s.good = true) (h : hostStep op s = .next t) :
    t.good = true := by
  rcases hostStep_cases h with ⟨-, rfl⟩ | ⟨off, n, l, -, -, rfl⟩ | ⟨off, n, v, -, -, hrun⟩ |
    ⟨off, n, v, r, -, -, -, rfl⟩ | ⟨off, n, v, a, -, hl, rfl⟩
  · exact platformReset_good hs
  · exact readEffect_good l (State.good_congr hs rfl rfl rfl rfl)
  · exact runWord_good hs hrun
  · exact writeReg_good r v hs
  · obtain ⟨hlo, hhi⟩ := locate_ibuf_bounds hl
    exact writeIbuf_good _ hs hlo hhi

/-! The obligations. -/

/-- Settles O9, by the cases of a step and of a host access: only a CMD write, a reset, a write to IBUF_LEN and one to
an IBUF byte reach what `State.good` speaks of. -/
theorem stepKeepsGood : Obligations.StepKeepsGood := by
  intro s t hs h
  rcases step_cases h with ⟨-, rfl⟩ | ⟨op, rest, -, hop⟩
  · exact hs
  · exact hostStep_good (s := { s with hostQueue := rest }) (State.good_congr hs rfl rfl rfl rfl) hop

/-- Settles O54, by the cases of a step and of a host access. -/
theorem noStepChangesIbufCap : Obligations.NoStepChangesIbufCap := by
  intro s t h
  rcases step_cases h with ⟨-, rfl⟩ | ⟨op, rest, -, hop⟩
  · rfl
  · exact hostStep_keeps_ibufCap (s := { s with hostQueue := rest }) hop

/-- Settles O8: after reset STATUS and IBUF_LEN are 0 and IBUF lists no byte, so only the capacity's bounds are left. -/
theorem resetStateIsGood : Obligations.ResetStateIsGood :=
  ⟨fun _ hmin hmax => resetWith_good hmin hmax, rfl⟩

end Sys2Proof.Machine

/-! ### What an ending, a register write and a read leave alone, runs of several steps, and a faulted unit -/

namespace Sys2Proof.Machine

/-! The fields that an ending, a register write and a read leave as they are. -/

@[simp] theorem finish_cmd (e : Ending) (s : State) : (finish e s).cmd = s.cmd := by cases e <;> rfl
@[simp] theorem finish_argValue (e : Ending) (s : State) : (finish e s).argValue = s.argValue := by cases e <;> rfl
@[simp] theorem finish_argCount (e : Ending) (s : State) : (finish e s).argCount = s.argCount := by cases e <;> rfl
@[simp] theorem finish_argPrefix (e : Ending) (s : State) : (finish e s).argPrefix = s.argPrefix := by cases e <;> rfl
@[simp] theorem finish_argNeg (e : Ending) (s : State) : (finish e s).argNeg = s.argNeg := by cases e <;> rfl
@[simp] theorem finish_argDp (e : Ending) (s : State) : (finish e s).argDp = s.argDp := by cases e <;> rfl
@[simp] theorem finish_hostQueue (e : Ending) (s : State) : (finish e s).hostQueue = s.hostQueue := by cases e <;> rfl
@[simp] theorem finish_hostReads (e : Ending) (s : State) : (finish e s).hostReads = s.hostReads := by cases e <;> rfl

/-- R11, R31: only a commit writes to OUT, at its tail. -/
theorem out_prefix_finish (e : Ending) (s : State) : s.out <+: (finish e s).out := by
  cases e with
  | commit p r => exact List.prefix_append s.out p
  | raise c => exact List.prefix_refl s.out
  | decline => exact List.prefix_refl s.out

@[simp] theorem writeReg_accept (r : Reg) (w : Word) (s : State) : (writeReg r w s).accept = s.accept := by cases r <;> rfl
@[simp] theorem writeReg_err (r : Reg) (w : Word) (s : State) : (writeReg r w s).err = s.err := by cases r <;> rfl
@[simp] theorem writeReg_fault (r : Reg) (w : Word) (s : State) : (writeReg r w s).fault = s.fault := by cases r <;> rfl
@[simp] theorem resValue_writeReg (r : Reg) (w : Word) (s : State) : (writeReg r w s).resValue = s.resValue := by
  cases r <;> rfl
@[simp] theorem resLen_writeReg (r : Reg) (w : Word) (s : State) : (writeReg r w s).resLen = s.resLen := by
  cases r <;> rfl
@[simp] theorem writeReg_resPrefix (r : Reg) (w : Word) (s : State) : (writeReg r w s).resPrefix = s.resPrefix := by
  cases r <;> rfl
@[simp] theorem writeReg_resNeg (r : Reg) (w : Word) (s : State) : (writeReg r w s).resNeg = s.resNeg := by cases r <;> rfl
@[simp] theorem writeReg_resDp (r : Reg) (w : Word) (s : State) : (writeReg r w s).resDp = s.resDp := by cases r <;> rfl
@[simp] theorem writeReg_out (r : Reg) (w : Word) (s : State) : (writeReg r w s).out = s.out := by cases r <;> rfl
@[simp] theorem writeReg_hostQueue (r : Reg) (w : Word) (s : State) : (writeReg r w s).hostQueue = s.hostQueue := by
  cases r <;> rfl

/-- R31, R56: a read changes OUT alone, and there it only removes bytes from the head. -/
theorem readEffect_eq_dropOut (l : Location) (s : State) :
    ∃ o, o <:+ s.out ∧ readEffect l s = { s with out := o } := by
  by_cases hl : l = .reg .outData
  · subst hl
    exact ⟨s.out.tail, List.tail_suffix s.out, rfl⟩
  · exact ⟨s.out, List.suffix_refl s.out, readEffect_plain l s hl⟩

/-! One host access, by the location it reaches. -/

theorem hostStep_read {s : State} {off : BitVec 8} {n : Nat} {l : Location} (h : locate s.ibufCap off n = some l) :
    hostStep (.read off n) s = .next (readEffect l { s with hostReads := s.hostReads ++ [locationWord l s] }) := by
  simp [hostStep, h]

theorem hostStep_write {s : State} {off : BitVec 8} {n : Nat} {l : Location} (v : Word)
    (h : locate s.ibufCap off n = some l) : hostStep (.write off n v) s = writeLocation l v s := by
  simp [hostStep, h]

theorem writeLocation_reg {r : Reg} (hr : r ≠ .cmd) (w : Word) (s : State) :
    writeLocation (.reg r) w s = .next (writeReg r w s) := by
  cases r with
  | cmd => exact absurd rfl hr
  | _ => rfl

/-- A write of a register that is not CMD stores its value and runs nothing. -/
theorem hostStep_write_reg {r : Reg} (hr : r ≠ .cmd) (w : Word) (s : State) :
    hostStep (.write r.offset 8 w) s = .next (writeReg r w s) :=
  (hostStep_write w (locate_offset _ r)).trans (writeLocation_reg hr w s)

/-- R20, R51: a register is found at its own offset only. -/
theorem regAt_eq_some {off : BitVec 8} {r : Reg} (h : regAt off = some r) : off = r.offset := by
  unfold regAt at h
  split at h <;> cases h <;> exact BitVec.eq_of_toNat_eq ‹_›

theorem locate_eq_reg {cap : Nat} {off : BitVec 8} {n : Nat} {r : Reg} (h : locate cap off n = some (.reg r)) :
    n = 8 ∧ off = r.offset := by
  rcases locate_cases h with ⟨hn, r', hr', hl⟩ | ⟨-, -, -, hl⟩
  · cases hl
    exact ⟨hn, regAt_eq_some hr'⟩
  · cases hl

/-- R30, R51: every byte of an IBUF that fits the window is reached at its own offset. -/
theorem locate_ibuf {cap i : Nat} (hi : i < cap) (hcap : cap ≤ Config.ibufCapMax) :
    locate cap (BitVec.ofNat 8 (0x80 + i)) 1 = some (.ibuf (0x80 + i)) := by
  have hoff : (BitVec.ofNat 8 (0x80 + i)).toNat = 0x80 + i := by
    simp only [Config.ibufCapMax] at hcap
    rw [BitVec.toNat_ofNat, Nat.mod_eq_of_lt (by omega)]
  simp [locate, hoff, hi]

/-! Steps and runs. -/

theorem hostStep_hostQueue {op : HostOp} {s t : State} (h : hostStep op s = .next t) : t.hostQueue = s.hostQueue := by
  rcases hostStep_cases h with ⟨-, rfl⟩ | ⟨off, n, l, -, -, rfl⟩ | ⟨off, n, v, -, -, hrun⟩ |
    ⟨off, n, v, r, -, -, -, rfl⟩ | ⟨off, n, v, a, -, -, rfl⟩
  · rfl
  · obtain ⟨o, -, hread⟩ := readEffect_eq_dropOut l { s with hostReads := s.hostReads ++ [locationWord l s] }
    rw [hread]
  · obtain ⟨e, -, hend⟩ := runWord_eq_finish v s
    cases hend.symm.trans hrun
    simp
  · simp
  · rfl

/-- A step takes the first thing of the host's queue away, if there is one. -/
theorem step_hostQueue {s t : State} (h : step s = .next t) : t.hostQueue = s.hostQueue.tail := by
  rcases step_cases h with ⟨hq, rfl⟩ | ⟨op, rest, hq, hop⟩
  · simp [hq]
  · simpa [hq] using hostStep_hostQueue hop

@[simp] theorem run_zero (s : State) : Host.Core.run core 0 s = .next s := rfl

theorem run_succ_of_step {s u : State} (k : Nat) (h : step s = .next u) :
    Host.Core.run core (k + 1) s = Host.Core.run core k u := by
  have hcore : core.step s = .next u := h
  simp [Host.Core.run, hcore]

/-- A run of `k + 1` steps that ends is one step and a run of `k`. -/
theorem run_succ_cases {k : Nat} {s t : State} (h : Host.Core.run core (k + 1) s = .next t) :
    ∃ u, step s = .next u ∧ Host.Core.run core k u = .next t := by
  cases hstep : step s with
  | next u => exact ⟨u, rfl, (run_succ_of_step k hstep).symm.trans h⟩
  | fault r =>
    have hcore : core.step s = .fault r := hstep
    simp [Host.Core.run, hcore] at h
  | refused r =>
    have hcore : core.step s = .refused r := hstep
    simp [Host.Core.run, hcore] at h

/-- A run of `k + n` steps goes on from where its first `k` lead. -/
theorem run_add {k : Nat} {s u : State} (n : Nat) (h : Host.Core.run core k s = .next u) :
    Host.Core.run core (k + n) s = Host.Core.run core n u := by
  induction k generalizing s with
  | zero =>
    cases h
    rw [Nat.zero_add]
  | succ k ih =>
    obtain ⟨x, hstep, hrun⟩ := run_succ_cases h
    rw [Nat.add_right_comm, run_succ_of_step _ hstep, ih hrun]

/-! A faulted unit. -/

/-- What a unit without a reset keeps from a faulted state `s` on (R26, R202, R205): FAULT, the results, and of OUT all
that the host has not read from its head. -/
structure StaysFaulted (s t : State) : Prop where
  fault : t.fault = true
  resValue : t.resValue = s.resValue
  resLen : t.resLen = s.resLen
  resPrefix : t.resPrefix = s.resPrefix
  resNeg : t.resNeg = s.resNeg
  resDp : t.resDp = s.resDp
  out : t.out <:+ s.out

theorem StaysFaulted.refl {s : State} (hs : s.fault = true) : StaysFaulted s s :=
  ⟨hs, rfl, rfl, rfl, rfl, rfl, List.suffix_refl s.out⟩

theorem StaysFaulted.trans {s t u : State} (hst : StaysFaulted s t) (htu : StaysFaulted t u) : StaysFaulted s u where
  fault := htu.fault
  resValue := htu.resValue.trans hst.resValue
  resLen := htu.resLen.trans hst.resLen
  resPrefix := htu.resPrefix.trans hst.resPrefix
  resNeg := htu.resNeg.trans hst.resNeg
  resDp := htu.resDp.trans hst.resDp
  out := htu.out.trans hst.out

/-- R205: while FAULT is set, a write to CMD stores the word and reports FAULTED, whatever the word. -/
theorem runWord_faulted (w : Word) {s : State} (hs : s.fault = true) :
    runWord w s = .next (raise .faulted { s with cmd := w }) := by
  obtain ⟨e, he, hrun⟩ := runWord_eq_finish w s
  rw [hrun, he.2 hs]
  rfl

/-- Of a host's accesses only a read of OUT_DATA and a write to CMD reach what a faulted unit keeps: the first removes
OUT's head, the second is refused. -/
theorem hostStep_staysFaulted {op : HostOp} {s t : State} (hs : s.fault = true) (hop : op ≠ .reset)
    (h : hostStep op s = .next t) : StaysFaulted s t := by
  rcases hostStep_cases h with ⟨hreset, -⟩ | ⟨off, n, l, -, -, rfl⟩ | ⟨off, n, v, -, -, hrun⟩ |
    ⟨off, n, v, r, -, -, -, rfl⟩ | ⟨off, n, v, a, -, -, rfl⟩
  · exact absurd hreset hop
  · obtain ⟨o, ho, hread⟩ := readEffect_eq_dropOut l { s with hostReads := s.hostReads ++ [locationWord l s] }
    rw [hread]
    exact ⟨hs, rfl, rfl, rfl, rfl, rfl, ho⟩
  · cases (runWord_faulted v hs).symm.trans hrun
    exact ⟨by simp [hs], rfl, rfl, rfl, rfl, rfl, List.suffix_refl s.out⟩
  · constructor <;> simp [hs]
  · exact ⟨hs, rfl, rfl, rfl, rfl, rfl, List.suffix_refl s.out⟩

theorem step_staysFaulted {s t : State} (hs : s.fault = true) (hq : s.hostQueue.head? ≠ some .reset)
    (h : step s = .next t) : StaysFaulted s t := by
  rcases step_cases h with ⟨-, rfl⟩ | ⟨op, rest, hcons, hop⟩
  · exact .refl hs
  · have hne : op ≠ .reset := by simpa [hcons] using hq
    have hkept := hostStep_staysFaulted (s := { s with hostQueue := rest }) hs hne hop
    exact ⟨hkept.fault, hkept.resValue, hkept.resLen, hkept.resPrefix, hkept.resNeg, hkept.resDp, hkept.out⟩

/-- The first `k + 1` entries of a list are its head and the first `k` of its tail. -/
theorem not_mem_take_succ {q : List HostOp} {op : HostOp} {k : Nat} (h : op ∉ q.take (k + 1)) :
    q.head? ≠ some op ∧ op ∉ q.tail.take k := by
  cases q with
  | nil => simp
  | cons x q =>
    obtain ⟨hx, hq⟩ : ¬ op = x ∧ op ∉ q.take k := by simpa using h
    exact ⟨by simpa [eq_comm] using hx, hq⟩

theorem run_staysFaulted {k : Nat} {s t : State} (hs : s.fault = true) (hq : HostOp.reset ∉ s.hostQueue.take k)
    (h : Host.Core.run core k s = .next t) : StaysFaulted s t := by
  induction k generalizing s with
  | zero =>
    cases h
    exact .refl hs
  | succ k ih =>
    obtain ⟨u, hstep, hrun⟩ := run_succ_cases h
    obtain ⟨hhead, htail⟩ := not_mem_take_succ hq
    have hfirst := step_staysFaulted hs hhead hstep
    rw [← step_hostQueue hstep] at htail
    exact hfirst.trans (ih hfirst.fault htail hrun)

/-- Settles O10, by induction on the number of steps: no step but a reset takes a faulted unit out of
`StaysFaulted`. -/
theorem faultLastsUntilReset : Obligations.FaultLastsUntilReset := by
  intro k s t hs hq h
  have hkept := run_staysFaulted hs hq h
  exact ⟨hkept.fault, hkept.resValue, hkept.resLen, hkept.resPrefix, hkept.resNeg, hkept.resDp, hkept.out⟩

end Sys2Proof.Machine

/-! ### STATUS after a command, and what no command writes -/

namespace Sys2Proof.Machine

/-! Where FAULT comes from. -/

/-- R26, R202: of the endings only a raise of DPRANGE sets FAULT. -/
theorem finish_sets_fault {e : Ending} {s : State} (hs : s.fault = false) (h : (finish e s).fault = true) :
    e = .raise .dpRange := by
  cases e with
  | raise c => simpa [finish, hs] using h
  | commit p r => simp [finish, hs] at h
  | decline => simp [finish, hs] at h

/-- R26, R202: a command that sets FAULT is a NUM.ENC, and raised DPRANGE. -/
theorem exec_sets_fault {i : Instr} {s t : State} (hs : s.fault = false) (h : exec i s = .next t)
    (ht : t.fault = true) : ∃ m, i = .numEnc m ∧ Config.dpMax < s.argDp.toNat ∧ t.err = 6 := by
  rw [exec_eq_runCommand, runCommand_ready _ _ hs] at h
  cases h
  have hbody := finish_sets_fault hs ht
  rcases bodyOf_raise hbody with hinput | ⟨m, rfl, ⟨-, hdp⟩ | hoperand⟩
  · simp at hinput
  · exact ⟨m, rfl, hdp, by rw [hbody]; rfl⟩
  · simp at hoperand

theorem runWord_sets_fault {w : Word} {s t : State} (hs : s.fault = false) (h : runWord w s = .next t)
    (ht : t.fault = true) : ∃ m, decode w = .ok (.numEnc m) ∧ Config.dpMax < s.argDp.toNat ∧ t.err = 6 := by
  rcases runWord_cases w s with ⟨i, hdecode, hrun⟩ | ⟨why, -, hrun⟩
  · obtain ⟨m, rfl, hdp, herr⟩ := exec_sets_fault (s := { s with cmd := w }) hs (hrun.symm.trans h) ht
    exact ⟨m, hdecode, hdp, herr⟩
  · cases hrun.symm.trans h
    simp [illegalCommand, hs] at ht

/-- Settles O11, by the cases of a step and of a host access: reset clears FAULT, and every access but a write to CMD
leaves it as it is. -/
theorem faultComesOnlyFromDpRange : Obligations.FaultComesOnlyFromDpRange := by
  intro s t hs h ht
  rcases step_cases h with ⟨-, rfl⟩ | ⟨op, rest, hq, hop⟩
  · simp [hs] at ht
  · rcases hostStep_cases hop with ⟨-, rfl⟩ | ⟨off, n, l, -, -, rfl⟩ | ⟨off, n, w, rfl, hl, hrun⟩ |
      ⟨off, n, w, r, -, -, -, rfl⟩ | ⟨off, n, w, a, -, -, rfl⟩
    · simp at ht
    · obtain ⟨o, -, hread⟩ := readEffect_eq_dropOut l
        { s with hostQueue := rest, hostReads := s.hostReads ++ [locationWord l { s with hostQueue := rest }] }
      rw [hread] at ht
      simp [hs] at ht
    · obtain ⟨rfl, rfl⟩ := locate_eq_reg hl
      obtain ⟨m, hdecode, hdp, herr⟩ := runWord_sets_fault (s := { s with hostQueue := rest }) hs hrun ht
      exact ⟨w, m, rest, hq, hdecode, hdp, herr⟩
    · simp [hs] at ht
    · simp [hs] at ht

/-- Settles O13: a command's ending writes the results, STATUS and OUT's tail only. -/
theorem commandsNeverWriteOperands : Obligations.CommandsNeverWriteOperands := by
  intro i s t h
  obtain ⟨e, -, hend⟩ := exec_eq_finish i s
  cases hend.symm.trans h
  refine ⟨?_, ?_, ?_, ?_, ?_, ?_, ?_, ?_, ?_, ?_, out_prefix_finish e s⟩ <;> simp

/-! Where a command declines. -/

theorem endingEmit_ne_decline (emitted : List Byte) : endingEmit emitted ≠ .decline := by
  simp [endingEmit]

theorem endingOf_ne_decline (d : Except ErrCode (List Byte × Results)) : endingOf d ≠ .decline := by
  cases d <;> simp [endingOf]

/-- R153: the machine's check of the operands is the one in plain arithmetic. -/
theorem unrepresentable_eq_false_iff (m : Mode) (neg : Bool) (dp : Byte) :
    unrepresentable m neg dp = false ↔ Spec.representable m neg dp.toNat := by
  cases m <;> simp [unrepresentable, Spec.representable, ← BitVec.toNat_inj]

/-- R152: the machine's decline condition is the one in plain arithmetic. -/
theorem declines_eq_true_iff (m : Mode) (v : Word) (neg : Bool) (dp : Byte) :
    declines m v neg dp = true ↔ Spec.declined m v.toNat neg dp.toNat := by
  cases m <;> simp [declines, Spec.declined, ← BitVec.toNat_inj, and_assoc]

/-- R152, R153, R155: NUM.ENC declines where its operands pass the checks and the Mode declines them. -/
theorem numEncCommand_eq_decline_iff (m : Mode) (s : State) :
    numEncCommand m s = .decline ↔ s.argDp.toNat ≤ 15 ∧ Spec.representable m s.argNeg s.argDp.toNat ∧
      Spec.declined m s.argValue.toNat s.argNeg s.argDp.toNat := by
  rw [← unrepresentable_eq_false_iff, ← declines_eq_true_iff]
  unfold numEncCommand
  split
  next hdp => simp [Nat.not_le.2 hdp]
  next hdp =>
    split
    next hrep => simp [hrep]
    next hrep =>
      split
      next hdec => simpa [hrep, hdec] using hdp
      next hdec => simp [hdec, endingEmit_ne_decline]

/-- R155: no command but NUM.ENC declines. -/
theorem bodyOf_eq_decline_iff (i : Instr) (s : State) :
    bodyOf i s = .decline ↔ ∃ m, i = .numEnc m ∧ numEncCommand m s = .decline := by
  refine ⟨fun h => ?_, fun ⟨m, hi, hm⟩ => by rw [hi, bodyOf_numEnc, hm]⟩
  rcases instr_family i with ⟨r, rfl⟩ | ⟨r, rfl⟩ | rfl | rfl | ⟨m, rfl⟩ | ⟨m, rfl⟩
  · rw [bodyOf_vleEnc] at h
    exact absurd h (endingEmit_ne_decline _)
  · rw [bodyOf_vleDec] at h
    exact absurd h (endingOf_ne_decline _)
  · exact absurd h (endingEmit_ne_decline _)
  · exact absurd h (endingOf_ne_decline _)
  · exact ⟨m, rfl, by rwa [bodyOf_numEnc] at h⟩
  · rw [bodyOf_numDec] at h
    exact absurd h (endingOf_ne_decline _)

/-- R200: the code 0 is that of no error. -/
theorem ErrCode.code_eq_zero_iff (e : ErrCode) : e.code = 0#4 ↔ e = .none := by
  cases e <;> decide

/-- R24: after a command the pair (ACCEPT, ERR) is (0, 0) exactly where its ending was to decline. -/
theorem exec_zeroStatus_iff {i : Instr} {s t : State} (h : exec i s = .next t) :
    (t.accept = false ∧ t.err = 0) ↔ s.fault = false ∧ bodyOf i s = .decline := by
  rw [exec_eq_runCommand] at h
  rcases runCommand_cases h with ⟨hf, rfl⟩ | ⟨hf, p, r, hb, rfl⟩ | ⟨hf, e, hb, rfl⟩ | ⟨hf, hb, rfl⟩
  · simp [hf, ErrCode.code_eq_zero_iff]
  · simp [hb]
  · have he : e ≠ .none := by
      rintro rfl
      simpa using bodyOf_raise hb
    simp [hb, ErrCode.code_eq_zero_iff, he]
  · simp [hf, hb]

/-- R24: a command that committed reports no error. -/
theorem exec_accept_err {i : Instr} {s t : State} (h : exec i s = .next t) (ht : t.accept = true) : t.err = 0 := by
  rw [exec_eq_runCommand] at h
  rcases runCommand_cases h with ⟨-, rfl⟩ | ⟨-, p, r, -, rfl⟩ | ⟨-, e, -, rfl⟩ | ⟨-, -, rfl⟩
  · simp at ht
  · rfl
  · simp at ht
  · simp at ht

/-- Settles O14: the pair (0, 0) is left by a decline alone, and only NUM.ENC's ending declines. -/
theorem zeroStatusPairMeansDeclined : Obligations.ZeroStatusPairMeansDeclined := by
  intro i s t h
  refine ⟨exec_accept_err h, ?_⟩
  rw [exec_zeroStatus_iff h, bodyOf_eq_decline_iff]
  simp only [numEncCommand_eq_decline_iff]

/-- Settles O4: the step is the write to CMD, which stores the word and runs what it decodes to. -/
theorem stepRunsDecodedCommand : Obligations.StepRunsDecodedCommand := by
  intro s w i rest hq hdecode
  calc step s = hostStep (.write Reg.cmd.offset 8 w) { s with hostQueue := rest } := step_cons hq
    _ = runWord w { s with hostQueue := rest } := hostStep_write w (locate_offset _ .cmd)
    _ = exec i { s with hostQueue := rest, cmd := w } := by rw [runWord, hdecode]

end Sys2Proof.Machine

/-! ### The register window: the value of each register, the draining of OUT and the loading of IBUF -/

namespace Sys2Proof.Machine

/-! The words a host reads, as sums over their fields. -/

/-- Two fields that do not overlap are joined by adding their values. -/
theorem toNat_or_shiftLeft {x y : Word} {k : Nat} (hx : x.toNat < 2 ^ k) (hy : 2 ^ k * y.toNat < 2 ^ 64) :
    (x ||| y <<< k).toNat = x.toNat + 2 ^ k * y.toNat := by
  have hshift : y.toNat <<< k = 2 ^ k * y.toNat := by rw [Nat.shiftLeft_eq, Nat.mul_comm]
  rw [BitVec.toNat_or, BitVec.toNat_shiftLeft, hshift, Nat.mod_eq_of_lt hy, Nat.lor_comm,
    ← Nat.two_pow_add_eq_or_of_lt hx, Nat.add_comm]

/-- A one-bit field of a register, as a word before it is put in its place. -/
theorem toNat_flagWord (b : Bool) : ((BitVec.ofBool b).setWidth 64).toNat = b.toNat := by cases b <;> rfl

/-- The layout that ARG_AUX and RES_AUX share (R29, R34): PREFIX [7:0], NEG [8], DP from bit 16 on. -/
theorem toNat_auxWord {n : Nat} (hn : n ≤ 8) (pre : Byte) (neg : Bool) (dp : BitVec n) :
    (pre.setWidth 64 ||| bitAt 8 neg ||| dp.setWidth 64 <<< 16).toNat =
      pre.toNat + 2 ^ 8 * neg.toNat + 2 ^ 16 * dp.toNat := by
  have hpre : (pre.setWidth 64).toNat = pre.toNat := BitVec.toNat_setWidth_of_le (by omega)
  have hdp : (dp.setWidth 64).toNat = dp.toNat := BitVec.toNat_setWidth_of_le (by omega)
  have hdplt : dp.toNat < 2 ^ 8 := dp.isLt.trans_le (Nat.pow_le_pow_right (by omega) hn)
  have hprelt : pre.toNat < 2 ^ 8 := pre.isLt
  have hneg := Bool.toNat_le neg
  have hlow : (pre.setWidth 64 ||| bitAt 8 neg).toNat = pre.toNat + 2 ^ 8 * neg.toNat := by
    rw [bitAt, toNat_or_shiftLeft (by omega) (by rw [toNat_flagWord]; omega), toNat_flagWord, hpre]
  rw [toNat_or_shiftLeft (by omega) (by omega), hlow, hdp]

/-- R23: STATUS is ACCEPT + 2^4 · ERR + 2^8 · FAULT. -/
theorem toNat_statusWord (s : State) :
    (statusWord s).toNat = s.accept.toNat + 2 ^ 4 * s.err.toNat + 2 ^ 8 * s.fault.toNat := by
  have haccept : (bitAt 0 s.accept).toNat = s.accept.toNat := by cases s.accept <;> rfl
  have herr : (s.err.setWidth 64).toNat = s.err.toNat := BitVec.toNat_setWidth_of_le (by omega)
  have herrlt : s.err.toNat < 2 ^ 4 := s.err.isLt
  have hbit := Bool.toNat_le s.accept
  have hfault := Bool.toNat_le s.fault
  have hlow : (bitAt 0 s.accept ||| s.err.setWidth 64 <<< 4).toNat = s.accept.toNat + 2 ^ 4 * s.err.toNat := by
    rw [toNat_or_shiftLeft (by omega) (by omega), haccept, herr]
  rw [statusWord, bitAt.eq_def 8, toNat_or_shiftLeft (by omega) (by rw [toNat_flagWord]; omega), hlow, toNat_flagWord]

theorem toNat_outLenWord {s : State} (h : s.out.length < 2 ^ 64) : (outLenWord s).toNat = s.out.length := by
  rw [outLenWord, if_pos h, BitVec.toNat_ofNat, Nat.mod_eq_of_lt h]

theorem outDataWord_nil {s : State} (h : s.out = []) : outDataWord s = 0x100 := by simp [outDataWord, h]

theorem outDataWord_cons {s : State} {b : Byte} {o : List Byte} (h : s.out = b :: o) :
    outDataWord s = b.setWidth 64 := by simp [outDataWord, h]

/-- R31: OUT_DATA is the byte at OUT's head, or 0x100. -/
theorem toNat_outDataWord (s : State) : (outDataWord s).toNat = Spec.registerValue .outData s := by
  cases hout : s.out with
  | nil => simp [outDataWord_nil hout, Spec.registerValue, hout]
  | cons b o =>
    rw [outDataWord_cons hout, BitVec.toNat_setWidth_of_le (by omega)]
    simp [Spec.registerValue, hout]

theorem ibufLen_lt_of_good {s : State} (hs : s.good = true) : s.ibufLen < 2 ^ 64 := by
  obtain ⟨hsizes, -, -⟩ := (State.good_iff s).1 hs
  obtain ⟨-, hmax, hlen⟩ := (State.sizesLegal_iff s).1 hsizes
  simp only [Config.ibufCapMax] at hmax
  omega

/-- R20, R22, R23, R27 to R34: a register reads as the sum of its fields in their places. -/
theorem toNat_regWord {r : Reg} {s : State} (hout : r = .outLen → s.out.length < 2 ^ 64)
    (hlen : r = .ibufLen → s.good = true) : (regWord r s).toNat = Spec.registerValue r s := by
  cases r with
  | cmd => rfl
  | status => exact toNat_statusWord s
  | argValue => rfl
  | argCount => rfl
  | argAux => exact toNat_auxWord (by omega) s.argPrefix s.argNeg s.argDp
  | ibufLen => exact (BitVec.toNat_ofNat _ _).trans (Nat.mod_eq_of_lt (ibufLen_lt_of_good (hlen rfl)))
  | resValue => rfl
  | resLen => rfl
  | resAux => exact toNat_auxWord (by omega) s.resPrefix s.resNeg s.resDp
  | outLen => exact toNat_outLenWord (hout rfl)
  | outData => exact toNat_outDataWord s

/-! Reads of a register, and the draining of OUT. -/

theorem readEffect_reg (r : Reg) (s : State) :
    readEffect (.reg r) s = { s with out := if r = .outData then s.out.tail else s.out } := by
  cases r <;> rfl

theorem step_read_reg {s : State} {r : Reg} {rest : List HostOp} (hq : s.hostQueue = .read r.offset 8 :: rest) :
    step s = .next { s with
      hostQueue := rest
      hostReads := s.hostReads ++ [regWord r s]
      out := if r = .outData then s.out.tail else s.out } := by
  rw [step_cons hq, hostStep_read (locate_offset _ r), readEffect_reg]
  rfl

theorem step_write_reg {s : State} {r : Reg} {w : Word} {rest : List HostOp} (hr : r ≠ .cmd)
    (hq : s.hostQueue = .write r.offset 8 w :: rest) : step s = .next (writeReg r w { s with hostQueue := rest }) :=
  (step_cons hq).trans (hostStep_write_reg hr w _)

/-- Settles O19: the step returns the register's word, whose value is the sum of its fields. -/
theorem registerReadReturnsItsFields : Obligations.RegisterReadReturnsItsFields :=
  fun s r _ hq hout hlen => ⟨regWord r s, toNat_regWord hout hlen, step_read_reg hq⟩

/-- Settles O20, by induction on OUT: each read of OUT_DATA takes its head, and the last finds it empty. -/
theorem drainReturnsOutInOrder : Obligations.DrainReturnsOutInOrder := by
  intro s rest hq
  induction hout : s.out generalizing s with
  | nil =>
    rw [hout] at hq
    have hstep := step_read_reg (r := .outData) (rest := rest) hq
    rw [List.length_nil, run_succ_of_step 0 hstep, run_zero]
    simp [regWord, outDataWord_nil hout, hout]
  | cons b o ih =>
    rw [hout] at hq
    have hstep := step_read_reg (r := .outData) (rest := hostDrain (o.length + 1) ++ rest) hq
    have hrun := ih { s with
      hostQueue := hostDrain (o.length + 1) ++ rest
      hostReads := s.hostReads ++ [outDataWord s]
      out := o } rfl rfl
    rw [List.length_cons, run_succ_of_step _ hstep]
    simpa [regWord, outDataWord_cons hout, hout] using hrun

end Sys2Proof.Machine

/-! ### Writes to the window -/

namespace Sys2Proof.Machine

/-! Writes to a register. -/

/-- R21, R29: the bits of ARG_AUX that a write reaches. -/
theorem getLsbD_auxMask : ∀ i : Fin 64,
    (0xFF01FF : Word).getLsbD i = decide (i.val < 8 ∨ i.val = 8 ∨ 16 ≤ i.val ∧ i.val < 24) := by
  decide

/-- R21, R29: ARG_AUX reads back as what was written to it, without the reserved bits; bit by bit. -/
theorem argAuxWord_writeReg (w : Word) (s : State) : argAuxWord (writeReg .argAux w s) = w &&& 0xFF01FF := by
  apply BitVec.eq_of_getLsbD_eq
  intro i hi
  rw [BitVec.getLsbD_and, getLsbD_auxMask ⟨i, hi⟩]
  simp only [argAuxWord, writeReg_argAux, bitAt, BitVec.getLsbD_or, BitVec.getLsbD_setWidth, BitVec.getLsbD_extractLsb',
    BitVec.getLsbD_shiftLeft, BitVec.getLsbD_ofBool, Nat.zero_add]
  grind

/-- Bits k + 7 to k of a word, as a byte of a number. -/
theorem extractLsb'_byte (w : Word) (k : Nat) : w.extractLsb' k 8 = Spec.byteOf (w.toNat / 2 ^ k) := by
  apply BitVec.eq_of_toNat_eq
  rw [BitVec.extractLsb'_toNat, Spec.byteOf, BitVec.toNat_ofNat, Nat.shiftRight_eq_div_pow]

/-- R21: the registers that a host cannot write. -/
theorem writeReg_readOnly {r : Reg} (hr : r ∈ [Reg.status, .resValue, .resLen, .resAux, .outLen, .outData]) (w : Word)
    (s : State) : r ≠ .cmd ∧ writeReg r w s = s := by
  cases r <;> simp at hr ⊢

/-- R21, R56: only a read of OUT_DATA, at its own offset, has an effect. -/
theorem readEffect_of_offset {cap n : Nat} {off : BitVec 8} {l : Location} (hl : locate cap off n = some l)
    (hoff : off ≠ Reg.outData.offset) (s : State) : readEffect l s = s :=
  readEffect_plain l s (fun h => hoff (locate_eq_reg (h ▸ hl)).2)

/-- Settles O21: `writeReg` ignores the read-only registers and ARG_AUX's reserved bits, and by the cases of a host
access nothing but CMD's write and OUT_DATA's read is left to change a read-only register. -/
theorem readOnlyRegistersIgnoreWrites : Obligations.ReadOnlyRegistersIgnoreWrites := by
  refine ⟨fun s r w rest hr hq => ?_, fun s w rest hq => ?_, fun s t op hreset hcmd hdata h => ?_⟩
  · obtain ⟨hne, hsame⟩ := writeReg_readOnly hr w { s with hostQueue := rest }
    rw [step_write_reg hne hq, hsame]
  · have hwrite := step_write_reg (r := .argAux) (by simp) hq
    have hread := step_read_reg (s := writeReg .argAux w { s with hostQueue := .read 0x20 8 :: rest }) (r := .argAux) rfl
    refine ⟨_, (run_succ_of_step 1 hwrite).trans (run_succ_of_step 0 hread), ?_⟩
    exact congrArg (fun v => s.hostReads ++ [v]) (argAuxWord_writeReg w _)
  · rcases hostStep_cases h with ⟨rfl, -⟩ | ⟨off, n, l, rfl, hl, rfl⟩ | ⟨off, n, v, rfl, hl, -⟩ |
      ⟨off, n, v, r, -, -, -, rfl⟩ | ⟨off, n, v, a, -, -, rfl⟩
    · exact absurd rfl hreset
    · rw [readEffect_of_offset hl (fun hoff => hdata n (by rw [hoff]; rfl))]
      simp
    · obtain ⟨-, rfl⟩ := locate_eq_reg hl
      exact absurd rfl (hcmd n v)
    · simp
    · simp

/-- Settles O22, register by register. -/
theorem argumentWritesStoreTheirValue : Obligations.ArgumentWritesStoreTheirValue := by
  intro s w rest
  refine ⟨fun hq => ?_, fun hq => ?_, fun hq => ?_, fun hq => ?_⟩
  · exact step_write_reg (r := .argValue) (by simp) hq
  · exact step_write_reg (r := .argCount) (by simp) hq
  · rw [step_write_reg (r := .argAux) (by simp) hq, writeReg_argAux, extractLsb'_byte, extractLsb'_byte, pow_zero,
      Nat.div_one]
    rfl
  · exact step_write_reg (r := .ibufLen) (by simp) hq

/-! Accesses to IBUF, and its loading. -/

theorem setWidth_byte_word (b : Byte) : (b.setWidth 64).setWidth 8 = b := by
  rw [BitVec.setWidth_setWidth_of_le b (by omega), BitVec.setWidth_eq]

theorem step_write_ibuf {s : State} {i : Nat} {b : Byte} {rest : List HostOp} (hi : i < s.ibufCap)
    (hcap : s.ibufCap ≤ Config.ibufCapMax)
    (hq : s.hostQueue = .write (BitVec.ofNat 8 (0x80 + i)) 1 (b.setWidth 64) :: rest) :
    step s = .next { s with hostQueue := rest, ibuf := Memory.write s.ibuf (0x80 + i) b } := by
  rw [step_cons hq, hostStep_write (s := { s with hostQueue := rest }) _ (locate_ibuf hi hcap), writeLocation,
    setWidth_byte_word]

theorem step_read_ibuf {s : State} {i : Nat} {rest : List HostOp} (hi : i < s.ibufCap)
    (hcap : s.ibufCap ≤ Config.ibufCapMax) (hq : s.hostQueue = .read (BitVec.ofNat 8 (0x80 + i)) 1 :: rest) :
    step s = .next { s with
      hostQueue := rest, hostReads := s.hostReads ++ [(Memory.read s.ibuf (0x80 + i)).setWidth 64] } :=
  (step_cons hq).trans (hostStep_read (s := { s with hostQueue := rest }) (locate_ibuf hi hcap))

/-- Settles O23: the write is `Memory.write` at the byte's offset, the read is `Memory.read` there. -/
theorem ibufAccessesReachOneByte : Obligations.IbufAccessesReachOneByte := by
  intro s i b rest hi hcap
  refine ⟨fun hq => ⟨_, step_write_ibuf hi hcap hq, fun hwf => ?_, fun a => ?_⟩, fun hq => step_read_ibuf hi hcap hq⟩
  · exact Memory.wf_write _ _ _ _ hwf (Nat.le_add_right _ _) (Nat.add_lt_add_left hi _)
  · exact Memory.read_write _ _ _ _

/-- The byte writes of a load from IBUF[i] on put each byte in its place and change nothing else. -/
theorem run_hostLoadFrom (bytes : List Byte) (i : Nat) (s : State) (rest : List HostOp)
    (hfit : i + bytes.length ≤ s.ibufCap) (hcap : s.ibufCap ≤ Config.ibufCapMax)
    (hq : s.hostQueue = hostLoadFrom i bytes ++ rest) :
    ∃ m, Host.Core.run core bytes.length s = .next { s with hostQueue := rest, ibuf := m } ∧
      ∀ j, Memory.read m (0x80 + j) =
        if j < i then Memory.read s.ibuf (0x80 + j) else bytes.getD (j - i) (Memory.read s.ibuf (0x80 + j)) := by
  induction bytes generalizing i s with
  | nil =>
    obtain rfl : s.hostQueue = rest := hq
    exact ⟨s.ibuf, rfl, fun j => by simp⟩
  | cons b bytes ih =>
    rw [List.length_cons] at hfit
    have hstep := step_write_ibuf (rest := hostLoadFrom (i + 1) bytes ++ rest) (by omega) hcap hq
    obtain ⟨m, hrun, hread⟩ := ih (i + 1) { s with
      hostQueue := hostLoadFrom (i + 1) bytes ++ rest
      ibuf := Memory.write s.ibuf (0x80 + i) b } (by simpa only [Nat.add_assoc, Nat.add_comm 1] using hfit) hcap rfl
    refine ⟨m, (run_succ_of_step _ hstep).trans hrun, fun j => ?_⟩
    rw [hread j, Memory.read_write]
    rcases Nat.lt_trichotomy j i with hlt | rfl | hgt
    · simp [hlt, Nat.lt_succ_of_lt hlt, hlt.ne]
    · simp
    · have hsub : j - i = j - (i + 1) + 1 := by omega
      simp [hsub, hgt.ne', Nat.not_lt.2 (Nat.succ_le_of_lt hgt), Nat.not_lt.2 hgt.le]

theorem legalLen_ofNat {cap n : Nat} (hn : n ≤ cap) (hcap : cap ≤ Config.ibufCapMax) :
    legalLen cap (BitVec.ofNat 64 n) = n := by
  simp only [Config.ibufCapMax] at hcap
  rw [legalLen, BitVec.toNat_ofNat, Nat.mod_eq_of_lt (by omega), Nat.min_eq_left hn]

/-- Settles O26: the byte writes of the load, by induction on its bytes, and then the write to IBUF_LEN. -/
theorem loadPlacesItsBytes : Obligations.LoadPlacesItsBytes := by
  intro s bytes rest hfit hcap hq
  rw [hostLoad, List.append_assoc] at hq
  obtain ⟨m, hrun, hread⟩ := run_hostLoadFrom bytes 0 s _ (by rwa [Nat.zero_add]) hcap hq
  have hlen := step_write_reg (r := .ibufLen) (rest := rest) (by simp)
    (s := { s with hostQueue := hostSet .ibufLen (BitVec.ofNat 64 bytes.length) ++ rest, ibuf := m }) rfl
  refine ⟨_, (run_add 1 hrun).trans (run_succ_of_step 0 hlen), rfl, legalLen_ofNat hfit hcap, fun i => ?_⟩
  simpa [ibufByte] using hread i

end Sys2Proof.Machine

/-! ### The input that a command reads -/

namespace Sys2Proof.Machine

/-! The decoders read IBUF through `inByte` alone, so states whose input primitive answers alike decode alike. -/

theorem lebDecodeFrom_congr {s s' : State} (h : inByte s' = inByte s) (pos d fuel k : Nat) (acc : Word) :
    lebDecodeFrom s' pos d fuel k acc = lebDecodeFrom s pos d fuel k acc := by
  induction fuel generalizing k acc with
  | zero => rfl
  | succ fuel ih => simp only [lebDecodeFrom, h, ih]

theorem vleDecodeShared_congr {s s' : State} (h : inByte s' = inByte s) (base r : Nat) :
    vleDecodeShared s' base r = vleDecodeShared s base r := by
  simp only [vleDecodeShared, lebDecode, h, lebDecodeFrom_congr h]

theorem vleDecodeOne_congr {s s' : State} (h : inByte s' = inByte s) (base : Nat) :
    vleDecodeOne s' base = vleDecodeOne s base := by
  simp only [vleDecodeOne, lebDecode, h, lebDecodeFrom_congr h]

theorem vleDecode_congr {s s' : State} (h : inByte s' = inByte s) (base : Nat) (r : Reserved) :
    vleDecode s' base r = vleDecode s base r := by
  cases r with
  | r0 => exact lebDecodeFrom_congr h base 0 11 0 0
  | r1 => exact vleDecodeOne_congr h base
  | r4 => exact vleDecodeShared_congr h base 4
  | r5 => exact vleDecodeShared_congr h base 5
  | r6 => exact vleDecodeShared_congr h base 6

theorem numDecode_congr {s s' : State} (h : inByte s' = inByte s) (m : Mode) : numDecode m s' = numDecode m s := by
  simp only [numDecode, h, vleDecode_congr h]

theorem spcDecCommand_congr {s s' : State} (h : inByte s' = inByte s) : spcDecCommand s' = spcDecCommand s := by
  simp only [spcDecCommand, h]

theorem numDecCommand_congr {s s' : State} (h : inByte s' = inByte s) (m : Mode) :
    numDecCommand m s' = numDecCommand m s := by
  simp only [numDecCommand, numDecode_congr h]

/-- R52, R111: without a byte at the start there is no VLE sequence. -/
theorem vleDecode_beyond {s : State} {base : Nat} (h : s.ibufLen ≤ base) (r : Reserved) :
    vleDecode s base r = .error .trunc := by
  cases r <;> simp [vleDecode, vleDecodeOne, vleDecodeShared, lebDecode, lebDecodeFrom, inByte_beyond h]

/-- The first byte, whose upper bits VLE.DEC reports as PREFIX, is one that it has read (R110). -/
theorem vleDecode_ok_inside {s : State} {base : Nat} {r : Reserved} {p : Word × Nat}
    (h : vleDecode s base r = .ok p) : base < s.ibufLen := by
  by_contra hout
  rw [vleDecode_beyond (Nat.not_lt.1 hout)] at h
  cases h

theorem decodedPrefix_congr {s s' : State} (h : ibufByte s' 0 = ibufByte s 0) (r : Reserved) :
    decodedPrefix s' r = decodedPrefix s r := by
  cases r <;> simp [decodedPrefix, h]

theorem vleDecCommand_congr {s s' : State} (h : inByte s' = inByte s)
    (hbyte : 0 < s.ibufLen → ibufByte s' 0 = ibufByte s 0) (r : Reserved) :
    vleDecCommand r s' = vleDecCommand r s := by
  rw [vleDecCommand, vleDecCommand, vleDecode_congr h]
  cases hdec : vleDecode s 0 r with
  | error e => rfl
  | ok p => simp only [decodedPrefix_congr (hbyte (vleDecode_ok_inside hdec))]

/-! Another content of IBUF beyond IBUF_LEN. -/

theorem inByte_withIbuf {s : State} {m : Memory}
    (h : ∀ k, k < s.ibufLen → Memory.read m (0x80 + k) = Memory.read s.ibuf (0x80 + k)) :
    inByte { s with ibuf := m } = inByte s := by
  funext k
  by_cases hk : k < s.ibufLen
  · rw [inByte_inside hk, inByte_inside (s := { s with ibuf := m }) hk]
    exact congrArg Except.ok (h k hk)
  · rw [inByte_beyond (Nat.not_lt.1 hk), inByte_beyond (s := { s with ibuf := m }) (Nat.not_lt.1 hk)]

/-- The ending of a command depends on IBUF through the bytes below IBUF_LEN alone: the encoders read none, the decoders
read those. -/
theorem bodyOf_withIbuf {s : State} {m : Memory} (i : Instr)
    (h : ∀ k, k < s.ibufLen → Memory.read m (0x80 + k) = Memory.read s.ibuf (0x80 + k)) :
    bodyOf i { s with ibuf := m } = bodyOf i s := by
  have hin := inByte_withIbuf h
  rcases instr_family i with ⟨r, rfl⟩ | ⟨r, rfl⟩ | rfl | rfl | ⟨mode, rfl⟩ | ⟨mode, rfl⟩
  · rw [bodyOf_vleEnc]
    rfl
  · rw [bodyOf_vleDec]
    exact vleDecCommand_congr hin (h 0) r
  · rfl
  · exact spcDecCommand_congr hin
  · rw [bodyOf_numEnc]
    rfl
  · rw [bodyOf_numDec]
    exact numDecCommand_congr hin mode

theorem finish_withIbuf (e : Ending) (s : State) (m : Memory) :
    finish e { s with ibuf := m } = { finish e s with ibuf := m } := by
  cases e <;> rfl

/-- R205, R206: a command's run as one ending, the refusal while FAULT is set. -/
theorem exec_eq_finish_ite (i : Instr) (s : State) :
    exec i s = .next (finish (if s.fault then .raise .faulted else bodyOf i s) s) := by
  rw [exec_eq_runCommand]
  cases hf : s.fault with
  | true => exact runCommand_faulted _ s hf
  | false => exact runCommand_ready _ s hf

/-- Settles O36: the command has the same ending, and no ending reads or writes IBUF. -/
theorem inputBeyondLengthIsNotRead : Obligations.InputBeyondLengthIsNotRead := by
  intro i s t m hm h
  cases (exec_eq_finish_ite i s).symm.trans h
  rw [exec_eq_finish_ite, bodyOf_withIbuf i hm, finish_withIbuf]

end Sys2Proof.Machine

/-! ### The accesses that are refused, the ones that may be repeated, and the window's place -/

namespace Sys2Proof.Machine

/-! The accesses that are refused. -/

/-- R20, R51: the registers start at the multiples of 8 up to 0x50. -/
theorem regAt_eq_none_iff (off : BitVec 8) : regAt off = none ↔ ¬ (off.toNat % 8 = 0 ∧ off.toNat ≤ 0x50) := by
  constructor
  · rintro h ⟨hmod, hle⟩
    obtain ⟨k, hk⟩ : ∃ k : Fin 11, off = BitVec.ofNat 8 (8 * k) :=
      ⟨⟨off.toNat / 8, by omega⟩, BitVec.eq_of_toNat_eq (by simp only [BitVec.toNat_ofNat]; omega)⟩
    have hstart : ∀ k : Fin 11, regAt (BitVec.ofNat 8 (8 * k)) ≠ none := by decide
    exact hstart k (hk ▸ h)
  · intro h
    by_contra hsome
    obtain ⟨r, hr⟩ := Option.ne_none_iff_exists'.1 hsome
    refine h ?_
    rw [regAt_eq_some hr]
    cases r <;> decide

/-- R51: an access reaches something exactly if it is a legal one. -/
theorem locate_eq_none_iff (cap : Nat) (off : BitVec 8) (n : Nat) :
    locate cap off n = none ↔ ¬ Spec.legalAccess cap off.toNat n := by
  unfold locate Spec.legalAccess
  split
  next hn => simp [hn, regAt_eq_none_iff]
  next hn => simp [hn]

/-- R55: a write to a location ends in its step. -/
theorem writeLocation_ends (l : Location) (v : Word) (s : State) : ∃ t, writeLocation l v s = .next t := by
  cases l with
  | reg r =>
    by_cases hr : r = .cmd
    · subst hr
      obtain ⟨e, -, hrun⟩ := runWord_eq_finish v s
      exact ⟨_, hrun⟩
    · exact ⟨_, writeLocation_reg hr v s⟩
  | ibuf a => exact ⟨_, rfl⟩

theorem hostStep_read_refused_iff (s : State) (off : BitVec 8) (n : Nat) :
    hostStep (.read off n) s = .fault .refusedAccess ↔ locate s.ibufCap off n = none := by
  cases hl : locate s.ibufCap off n with
  | none => simp [hostStep, hl]
  | some l => simp [hostStep_read hl]

theorem hostStep_write_refused_iff (s : State) (off : BitVec 8) (n : Nat) (v : Word) :
    hostStep (.write off n v) s = .fault .refusedAccess ↔ locate s.ibufCap off n = none := by
  cases hl : locate s.ibufCap off n with
  | none => simp [hostStep, hl]
  | some l =>
    obtain ⟨t, ht⟩ := writeLocation_ends l v s
    simp [hostStep_write v hl, ht]

/-- Settles O18: an access is refused exactly where it reaches nothing, which is where it is not legal. -/
theorem refusedAccessesAreTheIllegalOnes : Obligations.RefusedAccessesAreTheIllegalOnes := by
  intro s off n v
  rw [hostStep_read_refused_iff, hostStep_write_refused_iff, locate_eq_none_iff]
  exact ⟨Iff.rfl, Iff.rfl⟩

/-- Settles O15: the write reaches CMD, and every word written there ends its run. -/
theorem everyCommandWordEnds : Obligations.EveryCommandWordEnds := by
  intro s w
  obtain ⟨t, ht⟩ := writeLocation_ends (.reg .cmd) w s
  exact ⟨t, (hostStep_write w (locate_offset _ .cmd)).trans ht⟩

/-! Repeated writes. -/

theorem Memory.filter_insertCell (m : Memory) (a : Nat) (b : Byte) :
    (Memory.insertCell m (a, b)).filter (fun c => c.1 ≠ a) = m.filter (fun c => c.1 ≠ a) := by
  induction m with
  | nil => simp [Memory.insertCell]
  | cons c m ih =>
    by_cases hlt : a < c.1
    · simp [Memory.insertCell, hlt]
    · simp only [Memory.insertCell, hlt, if_false, List.filter_cons, ih]

/-- R56: the same byte written again changes nothing, whatever list the memory is. -/
theorem Memory.write_write (m : Memory) (a : Nat) (b : Byte) :
    Memory.write (Memory.write m a b) a b = Memory.write m a b := by
  have hothers : (Memory.write m a b).filter (fun c => c.1 ≠ a) = m.filter (fun c => c.1 ≠ a) := by
    unfold Memory.write
    split
    · simp
    · rw [Memory.filter_insertCell]
      simp
  rw [Memory.write.eq_def (Memory.write m a b), hothers, Memory.write]

/-- R56: the same value written again to a register that is not CMD changes nothing. -/
theorem writeReg_writeReg (r : Reg) (w : Word) (s : State) : writeReg r w (writeReg r w s) = writeReg r w s := by
  cases r <;> rfl

theorem hostStep_read_cases {s t : State} {off : BitVec 8} {n : Nat} (h : hostStep (.read off n) s = .next t) :
    ∃ l, locate s.ibufCap off n = some l ∧
      t = readEffect l { s with hostReads := s.hostReads ++ [locationWord l s] } := by
  cases hl : locate s.ibufCap off n with
  | none => simp [hostStep, hl] at h
  | some l =>
    rw [hostStep_read hl] at h
    exact ⟨l, rfl, (Host.Outcome.next.inj h).symm⟩

theorem hostStep_write_cases {s t : State} {off : BitVec 8} {n : Nat} {v : Word}
    (h : hostStep (.write off n v) s = .next t) :
    ∃ l, locate s.ibufCap off n = some l ∧ writeLocation l v s = .next t := by
  cases hl : locate s.ibufCap off n with
  | none => simp [hostStep, hl] at h
  | some l =>
    rw [hostStep_write v hl] at h
    exact ⟨l, rfl, h⟩

/-- R56: a register that is not CMD and a byte of IBUF each store what they stored before. -/
theorem writeLocation_idempotent {l : Location} {v : Word} {s t : State} (hl : l ≠ .reg .cmd)
    (h : writeLocation l v s = .next t) : writeLocation l v t = .next t := by
  cases l with
  | reg r =>
    have hr : r ≠ .cmd := fun hcmd => hl (congrArg Location.reg hcmd)
    rw [writeLocation_reg hr] at h ⊢
    cases h
    rw [writeReg_writeReg]
  | ibuf a =>
    cases h
    rw [writeLocation, Memory.write_write]

/-- Settles O25: off OUT_DATA's offset a read has no effect, and off CMD's a write stores what it stored before. -/
theorem plainAccessesAreIdempotent : Obligations.PlainAccessesAreIdempotent := by
  refine ⟨fun s t off n hoff h => ?_, fun s t off n v hoff h => ?_⟩
  · obtain ⟨l, hl, rfl⟩ := hostStep_read_cases h
    rw [readEffect_of_offset hl hoff]
  · obtain ⟨l, hl, hwrite⟩ := hostStep_write_cases h
    have hne : l ≠ .reg .cmd := fun hcmd => hoff (locate_eq_reg (hcmd ▸ hl)).2
    rw [← hostStep_keeps_ibufCap h] at hl
    exact (hostStep_write v hl).trans (writeLocation_idempotent hne hwrite)

/-! The window's place. -/

/-- Settles O17: an address is in the window exactly if its distance from ZCU_BASE is one of 256. -/
theorem windowIsAtZcuBase : Obligations.WindowIsAtZcuBase := by
  refine ⟨fun off => ?_, fun addr h => ?_⟩
  · have hoff : off.toNat < 256 := off.isLt
    rw [windowOffset, if_pos (by omega), Nat.add_sub_cancel_left, BitVec.ofNat_toNat, BitVec.setWidth_eq]
  · rw [windowOffset, if_neg (by omega)]

end Sys2Proof.Machine

/-! ### VLE.DEC: the loop of R108 in plain arithmetic, and the command's two endings -/

namespace Sys2Proof.Machine

/-! The bit fields of a byte as numbers. -/

theorem toNat_lowBits {d : Nat} (hd : d ≤ 8) (b : Byte) : (lowBits d b).toNat = b.toNat % 2 ^ d := by
  have hpow : 2 ^ d ≤ 2 ^ 8 := Nat.pow_le_pow_right (by omega) hd
  rw [lowBits, BitVec.toNat_setWidth_of_le (by omega), BitVec.toNat_and, BitVec.toNat_ofNat,
    Nat.mod_eq_of_lt (a := 2 ^ d - 1) (by omega), Nat.and_two_pow_sub_one_eq_mod]

/-- R104, R110: a byte with its r low bits cleared, as a number; bit by bit. -/
theorem keepAbove_eq_byteOf (r : Nat) (b : Byte) : keepAbove r b = Spec.byteOf (Spec.keep r b.toNat) := by
  apply BitVec.eq_of_getLsbD_eq
  intro i hi
  have hones : 0xFF#8 = BitVec.allOnes 8 := rfl
  rw [keepAbove, hones, BitVec.getLsbD_and, BitVec.getLsbD_shiftLeft, BitVec.getLsbD_allOnes, Spec.byteOf, Spec.keep,
    BitVec.getLsbD_ofNat, Nat.testBit_mul_two_pow, Nat.testBit_div_two_pow]
  by_cases hr : r ≤ i
  · simp [hi, hr, Nat.not_lt.2 hr, Nat.lt_of_le_of_lt (Nat.sub_le i r) hi, BitVec.testBit_toNat]
  · simp [hr, Nat.lt_of_not_le hr]

/-- R110: the PREFIX of VLE.DEC as a number. -/
theorem decodedPrefix_eq_byteOf (s : State) (r : Reserved) :
    decodedPrefix s r = Spec.byteOf (if r = .r0 then 0 else Spec.keep r.count (ibufByte s 0).toNat) := by
  cases r with
  | r0 => rfl
  | _ => exact keepAbove_eq_byteOf _ _

/-! One round of the loop of R108. -/

/-- R108: the machine's check of a chunk's range, on bits, is the one in plain arithmetic. -/
theorem chunk_out_of_range_iff {off : Nat} (hoff : off < 64) (b : Byte) :
    (57 < off ∧ lowBits 7 b >>> (64 - off) ≠ 0) ↔ 2 ^ 64 ≤ b.toNat % 128 * 2 ^ off := by
  have hlt : b.toNat % 128 < 2 ^ 7 := Nat.mod_lt _ (by omega)
  have hsplit : 2 ^ 64 = 2 ^ (64 - off) * 2 ^ off := by rw [← pow_add, Nat.sub_add_cancel hoff.le]
  have hzero : lowBits 7 b >>> (64 - off) = 0 ↔ b.toNat % 128 < 2 ^ (64 - off) := by
    rw [← BitVec.toNat_inj, BitVec.toNat_ushiftRight, toNat_lowBits (by omega), Nat.shiftRight_eq_div_pow]
    exact Nat.div_eq_zero_iff_lt (Nat.two_pow_pos _)
  have hrange : 2 ^ 64 ≤ b.toNat % 128 * 2 ^ off ↔ 2 ^ (64 - off) ≤ b.toNat % 128 := by
    rw [hsplit]
    exact Nat.mul_le_mul_right_iff (Nat.two_pow_pos _)
  rw [hrange, ne_eq, hzero, Nat.not_lt, and_iff_right_iff_imp]
  intro hle
  by_contra hsmall
  have hpow : 2 ^ 7 ≤ 2 ^ (64 - off) := Nat.pow_le_pow_right (by omega) (by omega)
  omega

theorem lebDecodeFrom_offset {s : State} {pos d k : Nat} (h : 64 ≤ d + 7 * k) (fuel : Nat) (acc : Word) :
    lebDecodeFrom s pos d (fuel + 1) k acc = .error .overlong := by
  simp [lebDecodeFrom, h]

theorem lebDecodeFrom_beyond {s : State} {pos d k : Nat} (hoff : d + 7 * k < 64) (hread : s.ibufLen ≤ pos + k)
    (fuel : Nat) (acc : Word) : lebDecodeFrom s pos d (fuel + 1) k acc = .error .trunc := by
  simp [lebDecodeFrom, Nat.not_le.2 hoff, inByte_beyond hread]

theorem lebDecodeFrom_chunk {s : State} {pos d k : Nat} (hoff : d + 7 * k < 64) (hread : pos + k < s.ibufLen)
    (hchunk : 2 ^ 64 ≤ Spec.chunkAt s (pos + k) (d + 7 * k)) (fuel : Nat) (acc : Word) :
    lebDecodeFrom s pos d (fuel + 1) k acc = .error .overlong := by
  have hrange := (chunk_out_of_range_iff hoff _).2 hchunk
  simp only [lebDecodeFrom, Config.chunkBits, if_neg (Nat.not_le.2 hoff), inByte_inside hread, if_pos hrange]

/-- R108: a byte that passes the checks adds its chunk, and its flag says whether the loop goes on. -/
theorem lebDecodeFrom_fits {s : State} {pos d k : Nat} (h : Spec.chunkFits s pos d k) (fuel : Nat) {acc : Word}
    (hacc : acc.toNat < 2 ^ (d + 7 * k)) :
    ∃ acc' : Word, acc'.toNat = acc.toNat + Spec.chunkAt s (pos + k) (d + 7 * k) ∧
      lebDecodeFrom s pos d (fuel + 1) k acc =
        if (ibufByte s (pos + k)).getLsbD 7 then lebDecodeFrom s pos d fuel (k + 1) acc' else .ok (acc', k + 1) := by
  obtain ⟨hoff, hread, hchunk⟩ := h
  have hrange := mt (chunk_out_of_range_iff hoff _).1 (Nat.not_le.2 hchunk)
  have hlow : (lowBits 7 (ibufByte s (pos + k))).toNat = (ibufByte s (pos + k)).toNat % 128 :=
    toNat_lowBits (by omega) _
  refine ⟨acc ||| lowBits 7 (ibufByte s (pos + k)) <<< (d + 7 * k), ?_, ?_⟩
  · rw [toNat_or_shiftLeft hacc (by rwa [hlow, Nat.mul_comm]), hlow, Spec.chunkAt, Nat.mul_comm]
  · simp only [lebDecodeFrom, Config.chunkBits, if_neg (Nat.not_le.2 hoff), inByte_inside hread, if_neg hrange]

/-! The whole loop. -/

@[simp] theorem lebValue_zero (s : State) (pos d : Nat) : Spec.lebValue s pos d 0 = 0 := rfl

theorem lebValue_succ (s : State) (pos d n : Nat) :
    Spec.lebValue s pos d (n + 1) = Spec.lebValue s pos d n + Spec.chunkAt s (pos + n) (d + 7 * n) := by
  simp [Spec.lebValue, List.range_succ]

theorem chunkAt_le (s : State) (i off : Nat) : Spec.chunkAt s i off ≤ 127 * 2 ^ off :=
  Nat.mul_le_mul_right _ (by omega)

/-- The chunks of `n` bytes and the bits below them take no bit from `d + 7 n` on. -/
theorem add_lebValue_lt (s : State) (pos : Nat) {d a : Nat} (ha : a < 2 ^ d) (n : Nat) :
    a + Spec.lebValue s pos d n < 2 ^ (d + 7 * n) := by
  induction n with
  | zero => simpa using ha
  | succ n ih =>
    have hchunk := chunkAt_le s (pos + n) (d + 7 * n)
    have hpow : 2 ^ (d + 7 * (n + 1)) = 128 * 2 ^ (d + 7 * n) := by ring
    rw [lebValue_succ]
    omega

/-- The bytes before byte `k` are read, in range and flagged, so that the loop of R108 comes to byte `k`. -/
def LebReaches (s : State) (pos d k : Nat) : Prop :=
  ∀ j, j < k → Spec.chunkFits s pos d j ∧ (ibufByte s (pos + j)).getLsbD 7 = true

/-- R108: the loop comes to byte `k` at most with the bound it has left (log entry 11). -/
theorem LebReaches.le {s : State} {pos d k : Nat} (h : LebReaches s pos d k) : k ≤ 10 := by
  cases k with
  | zero => exact Nat.zero_le _
  | succ k =>
    obtain ⟨⟨hoff, -, -⟩, -⟩ := h k (Nat.lt_succ_self k)
    omega

/-- R108: the loop at byte `k`, having added the chunks before it. -/
theorem lebDecodeFrom_reaches {s : State} {pos d k : Nat} (h : LebReaches s pos d k) (fuel : Nat) {acc : Word}
    (hacc : acc.toNat < 2 ^ d) :
    ∃ acc' : Word, acc'.toNat = acc.toNat + Spec.lebValue s pos d k ∧
      lebDecodeFrom s pos d (fuel + k) 0 acc = lebDecodeFrom s pos d fuel k acc' := by
  induction k generalizing fuel with
  | zero => exact ⟨acc, rfl, rfl⟩
  | succ k ih =>
    obtain ⟨hfits, hflag⟩ := h k (Nat.lt_succ_self k)
    obtain ⟨acc₁, hval₁, hrun₁⟩ := ih (fun j hj => h j (Nat.lt_succ_of_lt hj)) (fuel + 1)
    have hbound : acc₁.toNat < 2 ^ (d + 7 * k) := hval₁ ▸ add_lebValue_lt s pos hacc k
    obtain ⟨acc₂, hval₂, hrun₂⟩ := lebDecodeFrom_fits hfits fuel hbound
    refine ⟨acc₂, by rw [hval₂, hval₁, lebValue_succ, Nat.add_assoc], ?_⟩
    rw [Nat.add_comm k 1, ← Nat.add_assoc, hrun₁, hrun₂, if_pos hflag, Nat.add_comm 1 k]

/-- R108: `leb_decode` at a byte that its loop comes to; the bound leaves at least one round. -/
theorem lebDecode_reaches {s : State} {pos d k : Nat} (h : LebReaches s pos d k) {acc : Word}
    (hacc : acc.toNat < 2 ^ d) :
    ∃ fuel acc', acc'.toNat = acc.toNat + Spec.lebValue s pos d k ∧
      lebDecode s pos d acc = lebDecodeFrom s pos d (fuel + 1) k acc' := by
  obtain ⟨acc', hval, hrun⟩ := lebDecodeFrom_reaches h (10 - k + 1) hacc
  have hfuel : 10 - k + 1 + k = 11 := by have := h.le; omega
  exact ⟨10 - k, acc', hval, by rw [← hrun, hfuel, lebDecode]⟩

theorem lebReaches_of_run {s : State} {pos d n : Nat} (h : Spec.LebRun s pos d (n + 1)) :
    LebReaches s pos d n := by
  obtain ⟨-, hall⟩ := h
  intro j hj
  obtain ⟨hfits, hflag⟩ := hall j (by omega)
  exact ⟨hfits, hflag.2 (by omega)⟩

/-- R82, R108: `leb_decode` takes the whole of a chunk sequence and adds up its chunks. -/
theorem lebDecode_of_run {s : State} {pos d n : Nat} (h : Spec.LebRun s pos d n) {acc : Word}
    (hacc : acc.toNat < 2 ^ d) :
    lebDecode s pos d acc = .ok (BitVec.ofNat 64 (acc.toNat + Spec.lebValue s pos d n), n) := by
  cases n with
  | zero => exact absurd h.1 (Nat.lt_irrefl 0)
  | succ n =>
    obtain ⟨fuel, acc₁, hval₁, hrun₁⟩ := lebDecode_reaches (lebReaches_of_run h) hacc
    obtain ⟨hfits, hflag⟩ := h.2 n (Nat.lt_succ_self n)
    have hbound : acc₁.toNat < 2 ^ (d + 7 * n) := hval₁ ▸ add_lebValue_lt s pos hacc n
    obtain ⟨acc₂, hval₂, hrun₂⟩ := lebDecodeFrom_fits hfits fuel hbound
    have hend : ¬ (ibufByte s (pos + n)).getLsbD 7 = true := mt hflag.1 (Nat.lt_irrefl _)
    have hsum : acc₂.toNat = acc.toNat + Spec.lebValue s pos d (n + 1) := by
      rw [hval₂, hval₁, lebValue_succ, Nat.add_assoc]
    rw [hrun₁, hrun₂, if_neg hend, ← hsum, BitVec.ofNat_toNat, BitVec.setWidth_eq]

/-- R108, R206: `leb_decode` stops with the error of the byte at which its loop does. -/
theorem lebDecode_of_stops {s : State} {pos d k : Nat} {e : BitVec 4} (h : Spec.LebStops s pos d k e) {acc : Word}
    (hacc : acc.toNat < 2 ^ d) : ∃ c : ErrCode, c.code = e ∧ lebDecode s pos d acc = .error c := by
  obtain ⟨hreach, hstop⟩ := h
  obtain ⟨fuel, acc', -, hrun⟩ := lebDecode_reaches hreach hacc
  rw [hrun]
  rcases hstop with ⟨hoff, rfl⟩ | ⟨hoff, hread, rfl⟩ | ⟨hoff, hread, hchunk, rfl⟩
  · exact ⟨.overlong, rfl, lebDecodeFrom_offset hoff fuel acc'⟩
  · exact ⟨.trunc, rfl, lebDecodeFrom_beyond hoff hread fuel acc'⟩
  · exact ⟨.overlong, rfl, lebDecodeFrom_chunk hoff hread hchunk fuel acc'⟩

/-! A VLE sequence with its shared first byte. -/

theorem toNat_lowBits_lt {d : Nat} (hd : d ≤ 8) (b : Byte) : (lowBits d b).toNat < 2 ^ d := by
  rw [toNat_lowBits hd]
  exact Nat.mod_lt _ (Nat.two_pow_pos d)

theorem vleDecodeShared_of_run {s : State} {base r n : Nat} (hr : r - 1 ≤ 8) (h : Spec.SharedRun s base r n) :
    vleDecodeShared s base r = .ok (BitVec.ofNat 64
      ((ibufByte s base).toNat % 2 ^ (r - 1) + Spec.lebValue s (base + 1) (r - 1) (n - 1)), n) := by
  obtain ⟨hin, hrest⟩ := h
  simp only [vleDecodeShared, inByte_inside hin]
  split at hrest
  next hflag =>
    obtain ⟨hn, hrun⟩ := hrest
    rw [if_pos hflag, lebDecode_of_run hrun (toNat_lowBits_lt hr _), toNat_lowBits hr, Except.map,
      Nat.sub_add_cancel hn.le]
  next hflag =>
    rw [if_neg hflag, hrest, lebValue_zero, Nat.add_zero, ← toNat_lowBits hr, BitVec.ofNat_toNat, BitVec.setWidth_eq]

theorem vleDecodeOne_of_run {s : State} {base n : Nat} (hin : base < s.ibufLen) (hn : 1 < n)
    (hrun : Spec.LebRun s (base + 1) 1 (n - 1)) :
    vleDecodeOne s base = .ok (BitVec.ofNat 64
      ((ibufByte s base).toNat % 2 ^ 1 + Spec.lebValue s (base + 1) 1 (n - 1)), n) := by
  simp only [vleDecodeOne, inByte_inside hin]
  rw [lebDecode_of_run hrun (toNat_lowBits_lt (by omega) _), toNat_lowBits (by omega), Except.map,
    Nat.sub_add_cancel hn.le]

/-- R100, R111: `vle_decode` takes the whole of a VLE sequence and answers its value. -/
theorem vleDecode_of_run {s : State} {base n : Nat} {r : Reserved} (h : Spec.VleRun s base r n) :
    vleDecode s base r = .ok (BitVec.ofNat 64 (Spec.vleValue s base r n), n) := by
  cases r with
  | r0 => simpa [vleDecode, Spec.vleValue] using lebDecode_of_run (acc := 0) h (by simp)
  | r1 =>
    obtain ⟨hin, hn, hrun⟩ := h
    exact vleDecodeOne_of_run hin hn hrun
  | r4 => exact vleDecodeShared_of_run (by omega) h
  | r5 => exact vleDecodeShared_of_run (by omega) h
  | r6 => exact vleDecodeShared_of_run (by omega) h

theorem vleDecodeShared_of_stops {s : State} {base r k : Nat} {e : BitVec 4} (hr : r - 1 ≤ 8)
    (h : (s.ibufLen ≤ base ∧ e = 2) ∨ (base < s.ibufLen ∧ (ibufByte s base).getLsbD (r - 1) = true ∧
      Spec.LebStops s (base + 1) (r - 1) k e)) :
    ∃ c : ErrCode, c.code = e ∧ vleDecodeShared s base r = .error c := by
  rcases h with ⟨hout, rfl⟩ | ⟨hin, hflag, hstop⟩
  · exact ⟨.trunc, rfl, by simp only [vleDecodeShared, inByte_beyond hout]⟩
  · obtain ⟨c, hc, hdec⟩ := lebDecode_of_stops hstop (toNat_lowBits_lt hr (ibufByte s base))
    refine ⟨c, hc, ?_⟩
    simp only [vleDecodeShared, inByte_inside hin, if_pos hflag, hdec, Except.map]

theorem vleDecodeOne_of_stops {s : State} {base k : Nat} {e : BitVec 4}
    (h : (s.ibufLen ≤ base ∧ e = 2) ∨ (base < s.ibufLen ∧ Spec.LebStops s (base + 1) 1 k e)) :
    ∃ c : ErrCode, c.code = e ∧ vleDecodeOne s base = .error c := by
  rcases h with ⟨hout, rfl⟩ | ⟨hin, hstop⟩
  · exact ⟨.trunc, rfl, by simp only [vleDecodeOne, inByte_beyond hout]⟩
  · obtain ⟨c, hc, hdec⟩ := lebDecode_of_stops hstop (toNat_lowBits_lt (by omega) (ibufByte s base))
    refine ⟨c, hc, ?_⟩
    simp only [vleDecodeOne, inByte_inside hin, hdec, Except.map]

/-- R111, R206: `vle_decode` stops with the error of the byte at which its reading does. -/
theorem vleDecode_of_stops {s : State} {base k : Nat} {r : Reserved} {e : BitVec 4}
    (h : Spec.VleStops s base r k e) : ∃ c : ErrCode, c.code = e ∧ vleDecode s base r = .error c := by
  cases r with
  | r0 => exact lebDecode_of_stops h (by simp)
  | r1 => exact vleDecodeOne_of_stops h
  | r4 => exact vleDecodeShared_of_stops (r := 4) (by omega) h
  | r5 => exact vleDecodeShared_of_stops (r := 5) (by omega) h
  | r6 => exact vleDecodeShared_of_stops (r := 6) (by omega) h

/-! The command. -/

/-- R110: `VLE.DEC` commits what `vle_decode` answers. -/
theorem exec_vleDec_of_ok {s : State} {r : Reserved} {v n : Nat} (hf : s.fault = false)
    (h : vleDecode s 0 r = .ok (BitVec.ofNat 64 v, n)) :
    exec (.vleDec r) s = .next (Spec.committed s [] v n
      (if r = .r0 then 0 else Spec.keep r.count (ibufByte s 0).toNat) false 0) := by
  rw [exec_vleDec, runCommand_ready _ _ hf, vleDecCommand, h, decodedPrefix_eq_byteOf]
  rfl

/-- R202, R203: a raise of anything but DPRANGE leaves FAULT as it is. -/
theorem raise_eq_of_ne_dpRange {c : ErrCode} (hc : c ≠ .dpRange) (s : State) :
    raise c s = { s with accept := false, err := c.code } := by
  simp [raise, flagsRaised, hc]

/-- R111, R203: `VLE.DEC` raises the error that `vle_decode` stops with. -/
theorem exec_vleDec_of_error {s : State} {r : Reserved} {c : ErrCode} (hf : s.fault = false)
    (h : vleDecode s 0 r = .error c) : exec (.vleDec r) s = .next { s with accept := false, err := c.code } := by
  have hc : c ≠ .dpRange := by rcases vleDecode_error h with rfl | rfl <;> decide
  rw [exec_vleDec, runCommand_ready _ _ hf, vleDecCommand, h, ← raise_eq_of_ne_dpRange hc]
  rfl

/-- Settles O32: `vle_decode` answers the sequence's value and length, and the command commits them. -/
theorem vleDecCommits : Obligations.VleDecCommits :=
  fun _ _ _ hf hrun => exec_vleDec_of_ok hf (vleDecode_of_run hrun)

/-- Settles O33: `vle_decode` stops with the error of the first failing byte, and the command raises it. -/
theorem vleDecRaises : Obligations.VleDecRaises := by
  intro r s k e hf hstop
  obtain ⟨c, rfl, hdec⟩ := vleDecode_of_stops hstop
  exact exec_vleDec_of_error hf hdec

end Sys2Proof.Machine

/-! ### The command words: the decoder, the legality check and the opcode table say the same of a word's fields -/

namespace Sys2Proof

/-! The decoder, field by field. -/

/-- R72: an R field is read as the count whose field it is. -/
theorem decodeR_eq_some_iff (f : BitVec 3) (r : Reserved) : decodeR f = some r ↔ f = r.field := by
  revert f
  cases r <;> decide

/-- R73: a MODE field selects the Mode whose field it is. -/
theorem decodeMode_eq_iff (f : BitVec 2) (m : Mode) : decodeMode f = m ↔ f = m.field := by
  revert f
  cases m <;> decide

theorem decodeVle_eq_ok_iff {w : Word} {command : Reserved → Instr} {i : Instr} :
    decodeVle w command = .ok i ↔ ∃ r : Reserved, rOf w = r.field ∧ modeOf w = 0 ∧ i = command r := by
  unfold decodeVle
  simp only [← decodeR_eq_some_iff]
  cases decodeR (rOf w) with
  | none => simp
  | some r =>
    by_cases hmode : modeOf w = 0#2
    · simp [hmode, eq_comm]
    · simp [hmode]

theorem decodeSpace_eq_ok_iff {w : Word} {command i : Instr} :
    decodeSpace w command = .ok i ↔ rOf w = 0 ∧ modeOf w = 0 ∧ i = command := by
  unfold decodeSpace
  by_cases hr : rOf w = 0#3
  · by_cases hmode : modeOf w = 0#2
    · simp [hr, hmode, eq_comm]
    · simp [hr, hmode]
  · simp [hr]

theorem decodeNumeric_eq_ok_iff {w : Word} {command : Mode → Instr} {i : Instr} :
    decodeNumeric w command = .ok i ↔ ∃ m : Mode, rOf w = 0 ∧ modeOf w = m.field ∧ i = command m := by
  unfold decodeNumeric
  simp only [← decodeMode_eq_iff]
  by_cases hr : rOf w = 0#3
  · simp [hr, eq_comm]
  · simp [hr]

/-! The fields of a word and of a command. -/

/-- R70: the reserved bits that the decoder checks are the two reserved fields. -/
theorem reservedClear_iff (w : Word) :
    reservedClear w = true ↔ (Fields.ofWord w).bit7 = false ∧ (Fields.ofWord w).high = 0 := by
  have hhigh : w >>> 10 = 0#64 ↔ w.extractLsb' 10 54 = 0#54 := by
    rw [← BitVec.toNat_inj, ← BitVec.toNat_inj, BitVec.toNat_ushiftRight, BitVec.extractLsb'_toNat,
      Nat.shiftRight_eq_div_pow, Nat.mod_eq_of_lt (by omega)]
    rfl
  simp [reservedClear, Fields.ofWord, hhigh]

/-- A word is given by its fields: R70's fields take every bit. -/
theorem Fields.ofWord_injective {w w' : Word} (h : Fields.ofWord w = Fields.ofWord w') : w = w' := by
  simp only [Fields.ofWord, Fields.mk.injEq, ← BitVec.toNat_inj, BitVec.extractLsb'_toNat,
    Nat.shiftRight_eq_div_pow] at h
  obtain ⟨hopc, hr, h7, hmode, hhigh⟩ := h
  rw [← BitVec.testBit_toNat, ← BitVec.testBit_toNat, Nat.testBit_eq_decide_div_mod_eq,
    Nat.testBit_eq_decide_div_mod_eq, decide_eq_decide] at h7
  apply BitVec.eq_of_toNat_eq
  omega

theorem fields_vleEnc (r : Reserved) : (Instr.vleEnc r).fields = ⟨1, r.field, false, 0, 0⟩ := by cases r <;> rfl
theorem fields_vleDec (r : Reserved) : (Instr.vleDec r).fields = ⟨2, r.field, false, 0, 0⟩ := by cases r <;> rfl
theorem fields_numEnc (m : Mode) : (Instr.numEnc m).fields = ⟨5, 0, false, m.field, 0⟩ := by cases m <;> rfl
theorem fields_numDec (m : Mode) : (Instr.numDec m).fields = ⟨6, 0, false, m.field, 0⟩ := by cases m <;> rfl

/-- R76: a command's word has the command's fields. -/
theorem ofWord_encode (i : Instr) : Fields.ofWord (encode i) = i.fields := by
  cases i with
  | vleEncR0 => exact Laws.WordFields.vleEncR0
  | vleEncR1 => exact Laws.WordFields.vleEncR1
  | vleEncR4 => exact Laws.WordFields.vleEncR4
  | vleEncR5 => exact Laws.WordFields.vleEncR5
  | vleEncR6 => exact Laws.WordFields.vleEncR6
  | vleDecR0 => exact Laws.WordFields.vleDecR0
  | vleDecR1 => exact Laws.WordFields.vleDecR1
  | vleDecR4 => exact Laws.WordFields.vleDecR4
  | vleDecR5 => exact Laws.WordFields.vleDecR5
  | vleDecR6 => exact Laws.WordFields.vleDecR6
  | spcEnc => exact Laws.WordFields.spcEnc
  | spcDec => exact Laws.WordFields.spcDec
  | numEncUi => exact Laws.WordFields.numEncUi
  | numEncSi => exact Laws.WordFields.numEncSi
  | numEncUd => exact Laws.WordFields.numEncUd
  | numEncSd => exact Laws.WordFields.numEncSd
  | numDecUi => exact Laws.WordFields.numDecUi
  | numDecSi => exact Laws.WordFields.numDecSi
  | numDecUd => exact Laws.WordFields.numDecUd
  | numDecSd => exact Laws.WordFields.numDecSd

theorem ofWord_eq_fields_iff (w : Word) (i : Instr) : Fields.ofWord w = i.fields ↔ w = encode i := by
  rw [← ofWord_encode]
  exact ⟨Fields.ofWord_injective, congrArg _⟩

/-! The three readings of a word. -/

/-- R71, R75: the opcode of a word that decodes, and what its row asks of R and MODE. -/
theorem decode_opcode_cases {w : Word} {i : Instr} (h : decode w = .ok i) : reservedClear w = true ∧
    ((opcOf w = 1 ∧ decodeVle w .vleEnc = .ok i) ∨ (opcOf w = 2 ∧ decodeVle w .vleDec = .ok i) ∨
     (opcOf w = 3 ∧ decodeSpace w .spcEnc = .ok i) ∨ (opcOf w = 4 ∧ decodeSpace w .spcDec = .ok i) ∨
     (opcOf w = 5 ∧ decodeNumeric w .numEnc = .ok i) ∨ (opcOf w = 6 ∧ decodeNumeric w .numDec = .ok i)) := by
  unfold decode at h
  split at h
  next hclear =>
    refine ⟨hclear, ?_⟩
    split at h
    next hopc => exact .inl ⟨BitVec.eq_of_toNat_eq hopc, h⟩
    next hopc => exact .inr (.inl ⟨BitVec.eq_of_toNat_eq hopc, h⟩)
    next hopc => exact .inr (.inr (.inl ⟨BitVec.eq_of_toNat_eq hopc, h⟩))
    next hopc => exact .inr (.inr (.inr (.inl ⟨BitVec.eq_of_toNat_eq hopc, h⟩)))
    next hopc => exact .inr (.inr (.inr (.inr (.inl ⟨BitVec.eq_of_toNat_eq hopc, h⟩))))
    next hopc => exact .inr (.inr (.inr (.inr (.inr ⟨BitVec.eq_of_toNat_eq hopc, h⟩))))
    next => cases h
  next => cases h

/-- R70 to R73: a word that decodes has its command's fields. -/
theorem ofWord_eq_fields_of_decode {w : Word} {i : Instr} (h : decode w = .ok i) : Fields.ofWord w = i.fields := by
  obtain ⟨hclear, hcases⟩ := decode_opcode_cases h
  obtain ⟨hbit7, hhigh⟩ := (reservedClear_iff w).1 hclear
  have hword : Fields.ofWord w = ⟨opcOf w, rOf w, false, modeOf w, 0⟩ := by
    rw [← hbit7, ← hhigh]
    rfl
  rw [hword]
  rcases hcases with ⟨hopc, h⟩ | ⟨hopc, h⟩ | ⟨hopc, h⟩ | ⟨hopc, h⟩ | ⟨hopc, h⟩ | ⟨hopc, h⟩
  · obtain ⟨r, hr, hmode, rfl⟩ := decodeVle_eq_ok_iff.1 h
    rw [fields_vleEnc, hopc, hr, hmode]
  · obtain ⟨r, hr, hmode, rfl⟩ := decodeVle_eq_ok_iff.1 h
    rw [fields_vleDec, hopc, hr, hmode]
  · obtain ⟨hr, hmode, rfl⟩ := decodeSpace_eq_ok_iff.1 h
    rw [hopc, hr, hmode]
    rfl
  · obtain ⟨hr, hmode, rfl⟩ := decodeSpace_eq_ok_iff.1 h
    rw [hopc, hr, hmode]
    rfl
  · obtain ⟨m, hr, hmode, rfl⟩ := decodeNumeric_eq_ok_iff.1 h
    rw [fields_numEnc, hopc, hr, hmode]
  · obtain ⟨m, hr, hmode, rfl⟩ := decodeNumeric_eq_ok_iff.1 h
    rw [fields_numDec, hopc, hr, hmode]

/-- R74: every command passes the check. -/
theorem Instr.wellFormed_eq_true (i : Instr) : i.wellFormed = true := by
  cases i <;> decide

/-- R76: a command's word decodes to it. -/
theorem decode_encode (i : Instr) : decode (encode i) = .ok i := by
  have hwf := i.wellFormed_eq_true
  cases i with
  | vleEncR0 => exact Laws.RoundTrip.vleEncR0 hwf
  | vleEncR1 => exact Laws.RoundTrip.vleEncR1 hwf
  | vleEncR4 => exact Laws.RoundTrip.vleEncR4 hwf
  | vleEncR5 => exact Laws.RoundTrip.vleEncR5 hwf
  | vleEncR6 => exact Laws.RoundTrip.vleEncR6 hwf
  | vleDecR0 => exact Laws.RoundTrip.vleDecR0 hwf
  | vleDecR1 => exact Laws.RoundTrip.vleDecR1 hwf
  | vleDecR4 => exact Laws.RoundTrip.vleDecR4 hwf
  | vleDecR5 => exact Laws.RoundTrip.vleDecR5 hwf
  | vleDecR6 => exact Laws.RoundTrip.vleDecR6 hwf
  | spcEnc => exact Laws.RoundTrip.spcEnc hwf
  | spcDec => exact Laws.RoundTrip.spcDec hwf
  | numEncUi => exact Laws.RoundTrip.numEncUi hwf
  | numEncSi => exact Laws.RoundTrip.numEncSi hwf
  | numEncUd => exact Laws.RoundTrip.numEncUd hwf
  | numEncSd => exact Laws.RoundTrip.numEncSd hwf
  | numDecUi => exact Laws.RoundTrip.numDecUi hwf
  | numDecSi => exact Laws.RoundTrip.numDecSi hwf
  | numDecUd => exact Laws.RoundTrip.numDecUd hwf
  | numDecSd => exact Laws.RoundTrip.numDecSd hwf

theorem decode_eq_ok_iff (w : Word) (i : Instr) : decode w = .ok i ↔ w = encode i := by
  refine ⟨fun h => (ofWord_eq_fields_iff w i).1 (ofWord_eq_fields_of_decode h), ?_⟩
  rintro rfl
  exact decode_encode i

/-- Settles O1: a decoded word has the fields of its command, as the command's own word has, and the fields give the
word. -/
theorem decodeEncodeAgree : Obligations.DecodeEncodeAgree := by
  intro w i
  rw [decode_eq_ok_iff]
  simp [i.wellFormed_eq_true]

/-! R74's check. -/

/-- R72: the counts that the check lets pass are those of R_SET. -/
theorem exists_reserved_of_mem {f : BitVec 3} (h : f.toNat ∈ [0, 1, 4, 5, 6]) : ∃ r : Reserved, f = r.field := by
  have hread : ∀ f : BitVec 3, f.toNat ∈ [0, 1, 4, 5, 6] → decodeR f ≠ none := by decide
  obtain ⟨r, hr⟩ := Option.ne_none_iff_exists'.1 (hread f h)
  exact ⟨r, (decodeR_eq_some_iff f r).1 hr⟩

/-- R71: the opcodes that the check lets pass. -/
theorem opcode_cases {f : BitVec 4} (h : 1 ≤ f.toNat ∧ f.toNat ≤ 6) :
    f = 1 ∨ f = 2 ∨ f = 3 ∨ f = 4 ∨ f = 5 ∨ f = 6 := by
  revert f
  decide

/-- R71 to R74: the fields that pass the check are those of a command. -/
theorem Fields.wellFormed_iff (f : Fields) : f.wellFormed = true ↔ ∃ i : Instr, f = i.fields := by
  constructor
  · obtain ⟨opc, r, bit7, mode, high⟩ := f
    intro h
    simp only [wellFormed, reservedZero, opcodeLegal, rLegal, modeLegal, Bool.and_eq_true, beq_iff_eq,
      Bool.not_eq_true', decide_eq_true_eq] at h
    obtain ⟨⟨⟨⟨rfl, rfl⟩, hopc⟩, hr⟩, hmode⟩ := h
    rcases opcode_cases hopc with rfl | rfl | rfl | rfl | rfl | rfl
    · obtain ⟨r, rfl⟩ := exists_reserved_of_mem (by simpa using hr)
      obtain rfl : mode = 0 := by simpa using hmode
      exact ⟨.vleEnc r, (fields_vleEnc r).symm⟩
    · obtain ⟨r, rfl⟩ := exists_reserved_of_mem (by simpa using hr)
      obtain rfl : mode = 0 := by simpa using hmode
      exact ⟨.vleDec r, (fields_vleDec r).symm⟩
    · obtain rfl : r = 0 := by simpa using hr
      obtain rfl : mode = 0 := by simpa using hmode
      exact ⟨.spcEnc, rfl⟩
    · obtain rfl : r = 0 := by simpa using hr
      obtain rfl : mode = 0 := by simpa using hmode
      exact ⟨.spcDec, rfl⟩
    · obtain rfl : r = 0 := by simpa using hr
      exact ⟨.numEnc (decodeMode mode), by rw [fields_numEnc, ← (decodeMode_eq_iff mode _).1 rfl]⟩
    · obtain rfl : r = 0 := by simpa using hr
      exact ⟨.numDec (decodeMode mode), by rw [fields_numDec, ← (decodeMode_eq_iff mode _).1 rfl]⟩
  · rintro ⟨i, rfl⟩
    exact i.wellFormed_eq_true

/-- R74: the legal words are those of the commands. -/
theorem legal_iff_exists_encode (w : Word) : legal w = true ↔ ∃ i, w = encode i := by
  simp only [legal, Fields.wellFormed_iff, ofWord_eq_fields_iff]

theorem legal_iff_decodes (w : Word) : legal w = true ↔ ∃ i, decode w = .ok i := by
  simp only [legal_iff_exists_encode, decode_eq_ok_iff]

/-- The commands in the order of the opcode table's rows (R76). -/
def Instr.table : List Instr :=
  [.vleEncR0, .vleEncR1, .vleEncR4, .vleEncR5, .vleEncR6, .vleDecR0, .vleDecR1, .vleDecR4, .vleDecR5, .vleDecR6,
   .spcEnc, .spcDec, .numEncUi, .numEncSi, .numEncUd, .numEncSd, .numDecUi, .numDecSi, .numDecUd, .numDecSd]

theorem Instr.mem_table (i : Instr) : i ∈ Instr.table := by
  cases i <;> decide

/-- R76: the words of the opcode table, row by row. -/
theorem table_map_encode : Instr.table.map (fun i => (encode i).toNat) =
    [0x001, 0x011, 0x041, 0x051, 0x061, 0x002, 0x012, 0x042, 0x052, 0x062, 0x003, 0x004,
     0x005, 0x105, 0x205, 0x305, 0x006, 0x106, 0x206, 0x306] := by decide

/-- Settles O2: the legal words are the commands' words, and the table lists every command. -/
theorem legalWordsAreTheTable : Obligations.LegalWordsAreTheTable := by
  intro w
  rw [legal_iff_exists_encode, ← table_map_encode, List.mem_map]
  simp only [Instr.mem_table, true_and, BitVec.toNat_inj, eq_comm]

/-- Settles O3: each of the words is its command's encoding. -/
theorem writtenWordsDecode : Obligations.WrittenWordsDecode :=
  ⟨decode_encode .vleEncR6, decode_encode .vleDecR1, decode_encode .spcEnc, decode_encode .spcDec,
    decode_encode .numEncSi, decode_encode .numDecUd⟩

end Sys2Proof

/-! ### Words that are no command -/

namespace Sys2Proof.Machine

theorem runWord_illegal {w : Word} (s : State) (h : legal w = false) :
    runWord w s = .next (illegalCommand { s with cmd := w }) := by
  rcases runWord_cases w s with ⟨i, hdecode, -⟩ | ⟨why, -, hrun⟩
  · simp [(legal_iff_decodes w).2 ⟨i, hdecode⟩] at h
  · exact hrun

theorem step_write_cmd {s : State} {w : Word} {rest : List HostOp} (hq : s.hostQueue = .write 0x00 8 w :: rest) :
    step s = runWord w { s with hostQueue := rest } :=
  (step_cons hq).trans (hostStep_write w (locate_offset _ .cmd))

/-- R74, R205: the report of an illegal word writes STATUS alone. -/
theorem illegalCommand_eq (s : State) :
    illegalCommand s = { s with accept := false, err := if s.fault then 7 else 1 } := by
  cases hf : s.fault with
  | true => simp [illegalCommand, raise, flagsRaised, ErrCode.code, hf]
  | false => simp [illegalCommand, raise, flagsRaised, ErrCode.code, hf]

/-- R200: the code 1 is ILLEGAL's. -/
theorem ErrCode.code_eq_one_iff (e : ErrCode) : e.code = 1#4 ↔ e = .illegal := by
  cases e <;> decide

/-- R74: ILLEGAL comes from no command. -/
theorem exec_err_ne_illegal {i : Instr} {s t : State} (h : exec i s = .next t) : t.err ≠ 1 := by
  rw [exec_eq_runCommand] at h
  rcases runCommand_cases h with ⟨-, rfl⟩ | ⟨-, p, r, -, rfl⟩ | ⟨-, e, hraise, rfl⟩ | ⟨-, -, rfl⟩
  · simp [ErrCode.code_eq_one_iff]
  · simp
  · have he : e ≠ .illegal := by
      rintro rfl
      simpa using bodyOf_raise hraise
    simp [ErrCode.code_eq_one_iff, he]
  · simp

/-- Settles O5: an illegal word is reported, a legal one runs its command, and no command raises ILLEGAL. -/
theorem illegalWordIsReported : Obligations.IllegalWordIsReported := by
  intro s w rest hq
  rw [step_write_cmd hq]
  refine ⟨fun hill => ?_, fun hleg t ht => ?_⟩
  · rw [runWord_illegal _ hill, illegalCommand_eq]
  · obtain ⟨i, hdecode⟩ := (legal_iff_decodes w).1 hleg
    rw [runWord, hdecode] at ht
    exact exec_err_ne_illegal ht

end Sys2Proof.Machine

/-! ### SPC.DEC -/

namespace Sys2Proof.Machine

/-- R80: a byte is a space-run byte where its top bits are "10", which is where 64 goes into it twice. -/
theorem byteClass_eq_spaceRun_iff (b : Byte) : byteClass b = .spaceRun ↔ b.toNat / 64 = 2 := by
  revert b
  decide

/-- R80: a byte is a numeric lead byte where its top bits are "11", which is where 64 goes into it three times. -/
theorem byteClass_eq_numericLead_iff (b : Byte) : byteClass b = .numericLead ↔ b.toNat / 64 = 3 := by
  revert b
  decide

theorem lowBits_eq_ofNat {d : Nat} (hd : d ≤ 8) (b : Byte) : lowBits d b = BitVec.ofNat 64 (b.toNat % 2 ^ d) := by
  rw [← toNat_lowBits hd, BitVec.ofNat_toNat, BitVec.setWidth_eq]

/-- R136, R137: a space-run byte stands for as many spaces as its low six bits count. -/
theorem spaceDecode_spaceRun {b : Byte} (h : byteClass b = .spaceRun) :
    spaceDecode b = .ok (List.replicate (b.toNat % 64) spaceChar,
      { value := BitVec.ofNat 64 (b.toNat % 64), len := 1 }) := by
  have hcount : (lowBits 6 b).toNat = b.toNat % 64 := toNat_lowBits (by omega) b
  have hvalue : lowBits 6 b = BitVec.ofNat 64 (b.toNat % 64) := lowBits_eq_ofNat (by omega) b
  simp only [spaceDecode, h, hcount]
  rw [hvalue]

theorem spaceDecode_badTag {b : Byte} (h : byteClass b ≠ .spaceRun) : spaceDecode b = .error .badTag := by
  unfold spaceDecode
  split
  next hrun => exact absurd hrun h
  next => rfl
  next => rfl

theorem spcDecCommand_inside {s : State} (h : 0 < s.ibufLen) :
    spcDecCommand s = endingOf (spaceDecode (ibufByte s 0)) := by
  simp only [spcDecCommand, inByte_inside h]

theorem spcDecCommand_beyond {s : State} (h : s.ibufLen = 0) : spcDecCommand s = .raise .trunc := by
  simp only [spcDecCommand, inByte_beyond h.le, endingOf_error]

/-- R203: a command that raises anything but DPRANGE changes ACCEPT and ERR alone. -/
theorem exec_of_raise {i : Instr} {s : State} {c : ErrCode} (hf : s.fault = false) (hc : c ≠ .dpRange)
    (h : bodyOf i s = .raise c) : exec i s = .next { s with accept := false, err := c.code } := by
  rw [exec_eq_runCommand, runCommand_ready _ _ hf, h, finish, raise_eq_of_ne_dpRange hc]

/-- Settles O41: byte 0 is read and is a space-run byte. -/
theorem spcDecCommits : Obligations.SpcDecCommits := by
  intro s hf hin hclass
  have hrun := (byteClass_eq_spaceRun_iff _).2 hclass
  rw [exec_eq_runCommand, runCommand_ready _ _ hf, bodyOf_spcDec, spcDecCommand_inside hin, spaceDecode_spaceRun hrun]
  rfl

/-- Settles O42: the read of byte 0 raises TRUNC, or its class BADTAG. -/
theorem spcDecRaises : Obligations.SpcDecRaises := by
  refine fun s hf => ⟨fun hempty => ?_, fun hin hclass => ?_⟩
  · exact exec_of_raise hf (c := .trunc) (by decide) (spcDecCommand_beyond hempty)
  · have hbody : bodyOf .spcDec s = .raise .badTag := by
      rw [bodyOf_spcDec, spcDecCommand_inside hin, spaceDecode_badTag (mt (byteClass_eq_spaceRun_iff _).1 hclass),
        endingOf_error]
    exact exec_of_raise hf (by decide) hbody

end Sys2Proof.Machine

/-! ### NUM.DEC: the lead byte's layout and the magnitude -/

namespace Sys2Proof.Machine

/-! The reading of the token. -/

theorem extractLsb'_nibble (b : Byte) (k : Nat) : b.extractLsb' k 4 = BitVec.ofNat 4 (b.toNat / 2 ^ k % 16) := by
  apply BitVec.eq_of_toNat_eq
  rw [BitVec.extractLsb'_toNat, BitVec.toNat_ofNat, Nat.shiftRight_eq_div_pow]
  exact (Nat.mod_mod _ _).symm

/-- R83 to R88, R151: the layout that the decoder reads off a lead byte's bits is the one its number says. -/
theorem leadLayout_of_layout {m : Mode} {b : Byte} {r : Reserved} {base dp : Nat} {neg : Bool}
    (h : Spec.layout m b.toNat = (r, base, neg, dp)) : leadLayout m b = ⟨r, base, neg, BitVec.ofNat 4 dp⟩ := by
  cases m with
  | ui =>
    cases h
    rfl
  | si =>
    cases h
    rfl
  | ud =>
    simp only [Spec.layout, BitVec.testBit_toNat] at h
    unfold leadLayout
    split at h
    next hpoint =>
      cases h
      simp only [if_pos hpoint, extractLsb'_nibble, pow_one]
    next hpoint =>
      cases h
      simp only [if_neg hpoint]
      rfl
  | sd =>
    simp only [Spec.layout, BitVec.testBit_toNat] at h
    unfold leadLayout
    split at h
    next hpoint =>
      cases h
      simp only [if_pos hpoint, extractLsb'_nibble, pow_zero, Nat.div_one]
    next hpoint =>
      cases h
      simp only [if_neg hpoint]
      rfl

/-- R83 to R88: a decimal-place count has four bits. -/
theorem layout_places_lt {m : Mode} {b : Nat} {r : Reserved} {base dp : Nat} {neg : Bool}
    (h : Spec.layout m b = (r, base, neg, dp)) : dp < 16 := by
  unfold Spec.layout at h
  split at h
  case h_1 | h_2 =>
    cases h
    omega
  case h_3 | h_4 =>
    split at h <;> cases h <;> omega

/-- R166: `num_decode` on a lead byte reads the magnitude where the layout says. -/
theorem numDecode_leadByte {m : Mode} {s : State} {r : Reserved} {base dp : Nat} {neg : Bool} (hlead : Spec.leadByte s)
    (hlayout : Spec.layout m (ibufByte s 0).toNat = (r, base, neg, dp)) :
    numDecode m s = (vleDecode s base r).map (fun p => ⟨p.1, neg, BitVec.ofNat 4 dp, p.2 + base⟩) := by
  obtain ⟨hin, hclass⟩ := hlead
  simp only [numDecode, inByte_inside hin, (byteClass_eq_numericLead_iff _).2 hclass, leadLayout_of_layout hlayout]

theorem numDecode_beyond (m : Mode) {s : State} (h : s.ibufLen = 0) : numDecode m s = .error .trunc := by
  simp only [numDecode, inByte_beyond h.le]

theorem numDecode_badTag (m : Mode) {s : State} (hin : 0 < s.ibufLen) (h : byteClass (ibufByte s 0) ≠ .numericLead) :
    numDecode m s = .error .badTag := by
  simp only [numDecode, inByte_inside hin]
  split
  next => rfl
  next => rfl
  next hlead => exact absurd hlead h

/-- R165, R203: NUM.DEC raises the error that `num_decode` stops with. -/
theorem exec_numDec_of_error {m : Mode} {s : State} {c : ErrCode} (hf : s.fault = false)
    (h : numDecode m s = .error c) : exec (.numDec m) s = .next { s with accept := false, err := c.code } := by
  have hc : c ≠ .dpRange := by rcases numDecode_error h with rfl | rfl | rfl <;> decide
  refine exec_of_raise hf hc ?_
  rw [bodyOf_numDec, numDecCommand, h]
  rfl

/-- Settles O48: `num_decode` stops at the read of byte 0, at its tag, or where the reading of the magnitude does. -/
theorem numDecRaises : Obligations.NumDecRaises := by
  refine fun m s hf => ⟨fun hempty => ?_, fun hin hclass => ?_, fun r base neg dp k e hlead hlayout hstop => ?_⟩
  · exact exec_numDec_of_error hf (numDecode_beyond m hempty)
  · exact exec_numDec_of_error hf (numDecode_badTag m hin (mt (byteClass_eq_numericLead_iff _).1 hclass))
  · obtain ⟨c, rfl, hdec⟩ := vleDecode_of_stops hstop
    refine exec_numDec_of_error hf ?_
    rw [numDecode_leadByte hlead hlayout, hdec]
    rfl

/-! The magnitude is a 64-bit number. -/

/-- R108: a chunk that passes the range check leaves the sum below 2^64. -/
theorem add_lebValue_lt_word {s : State} {pos d n a : Nat} (h : Spec.LebRun s pos d n) (ha : a < 2 ^ d) :
    a + Spec.lebValue s pos d n < 2 ^ 64 := by
  obtain ⟨hn, hall⟩ := h
  obtain ⟨n, rfl⟩ := Nat.exists_eq_add_one.2 hn
  obtain ⟨⟨hoff, -, hchunk⟩, -⟩ := hall n (Nat.lt_succ_self n)
  have hbelow := add_lebValue_lt s pos ha n
  have hsplit : 2 ^ 64 = 2 ^ (64 - (d + 7 * n)) * 2 ^ (d + 7 * n) := by rw [← pow_add, Nat.sub_add_cancel hoff.le]
  have hfit : (ibufByte s (pos + n)).toNat % 128 + 1 ≤ 2 ^ (64 - (d + 7 * n)) :=
    lt_of_mul_lt_mul_right (hsplit ▸ hchunk) (Nat.zero_le _)
  calc a + Spec.lebValue s pos d (n + 1)
      = a + Spec.lebValue s pos d n + Spec.chunkAt s (pos + n) (d + 7 * n) := by rw [lebValue_succ, Nat.add_assoc]
    _ < 2 ^ (d + 7 * n) + Spec.chunkAt s (pos + n) (d + 7 * n) := Nat.add_lt_add_right hbelow _
    _ = ((ibufByte s (pos + n)).toNat % 128 + 1) * 2 ^ (d + 7 * n) := by rw [Spec.chunkAt]; ring
    _ ≤ 2 ^ 64 := hsplit ▸ Nat.mul_le_mul_right _ hfit

theorem sharedValue_lt_word {s : State} {base r n : Nat} (hr : r - 1 < 64) (h : Spec.SharedRun s base r n) :
    (ibufByte s base).toNat % 2 ^ (r - 1) + Spec.lebValue s (base + 1) (r - 1) (n - 1) < 2 ^ 64 := by
  obtain ⟨-, hrest⟩ := h
  have hlow : (ibufByte s base).toNat % 2 ^ (r - 1) < 2 ^ (r - 1) := Nat.mod_lt _ (Nat.two_pow_pos _)
  split at hrest
  next => exact add_lebValue_lt_word hrest.2 hlow
  next =>
    rw [hrest, lebValue_zero, Nat.add_zero]
    exact hlow.trans (Nat.pow_lt_pow_right (by omega) hr)

/-- R108, R111: the value of a whole VLE sequence is a 64-bit number. -/
theorem vleValue_lt_word {s : State} {base n : Nat} {r : Reserved} (h : Spec.VleRun s base r n) :
    Spec.vleValue s base r n < 2 ^ 64 := by
  cases r with
  | r0 => simpa [Spec.vleValue] using add_lebValue_lt_word (a := 0) h (by simp)
  | r1 =>
    obtain ⟨-, -, hrun⟩ := h
    exact add_lebValue_lt_word hrun (Nat.mod_lt _ (Nat.two_pow_pos 1))
  | r4 => exact sharedValue_lt_word (r := 4) (by omega) h
  | r5 => exact sharedValue_lt_word (r := 5) (by omega) h
  | r6 => exact sharedValue_lt_word (r := 6) (by omega) h

/-! The text of a number (R167). -/

theorem ascii_append (ds es : List Nat) : Spec.ascii (ds ++ es) = Spec.ascii ds ++ Spec.ascii es := List.map_append

theorem ascii_singleton (d : Nat) : Spec.ascii [d] = [digitChar d] := rfl

theorem ascii_replicate (n d : Nat) : Spec.ascii (List.replicate n d) = List.replicate n (digitChar d) :=
  List.map_replicate

theorem decimalDigits_of_lt {n : Nat} (h : n < 10) : Spec.decimalDigits n = [n] := by
  rcases Nat.eq_zero_or_pos n with rfl | hpos
  · rfl
  · rw [Spec.decimalDigits, if_neg hpos.ne', Nat.digits_of_lt 10 n hpos.ne' h]
    rfl

theorem decimalDigits_of_ge {n : Nat} (h : 10 ≤ n) :
    Spec.decimalDigits n = Spec.decimalDigits (n / 10) ++ [n % 10] := by
  have hdiv : n / 10 ≠ 0 := by omega
  rw [Spec.decimalDigits, if_neg (by omega), Nat.digits_def' (by omega) (by omega), List.reverse_cons,
    Spec.decimalDigits, if_neg hdiv]

theorem length_decimalDigits_pos (n : Nat) : 0 < (Spec.decimalDigits n).length := by
  rcases Nat.lt_or_ge n 10 with h | h
  · simp [decimalDigits_of_lt h]
  · simp [decimalDigits_of_ge h]

/-- R167: the machine's digits of a number that its bound holds are the decimal digits in ASCII. -/
theorem digitsUpTo_eq_ascii {fuel n : Nat} (h : n < 10 ^ fuel) (hfuel : 0 < fuel) :
    digitsUpTo fuel n = Spec.ascii (Spec.decimalDigits n) := by
  induction fuel generalizing n with
  | zero => exact absurd hfuel (Nat.lt_irrefl 0)
  | succ fuel ih =>
    rw [digitsUpTo_succ]
    split
    next hn => rw [decimalDigits_of_lt hn, ascii_singleton]
    next hn =>
      have hdiv : n / 10 < 10 ^ fuel := Nat.div_lt_of_lt_mul (by rwa [← pow_succ'])
      have hpos : 0 < fuel := Nat.pos_of_ne_zero (by rintro rfl; omega)
      rw [decimalDigits_of_ge (by omega), ascii_append, ascii_singleton, ih hdiv hpos]

/-- R167: `digits`; twenty digits hold 64 bits (log entry 11). -/
theorem digits_eq_ascii (v : Word) : digits v = Spec.ascii (Spec.decimalDigits v.toNat) :=
  digitsUpTo_eq_ascii (by omega) (by omega)

theorem paddedDigits_of_lt {v dp : Nat} (h : dp < (Spec.decimalDigits v).length) :
    Spec.paddedDigits v dp = Spec.decimalDigits v := by
  rw [Spec.paddedDigits, Nat.sub_eq_zero_of_le h]
  rfl

theorem paddedDigits_of_ge {v dp : Nat} (h : (Spec.decimalDigits v).length ≤ dp) :
    Spec.paddedDigits v dp =
      0 :: (List.replicate (dp - (Spec.decimalDigits v).length) 0 ++ Spec.decimalDigits v) := by
  rw [Spec.paddedDigits, Nat.sub_add_comm h, List.replicate_succ, List.cons_append]

/-- R167: the body of `render` is the padded digits with the point before the last `dp` of them. -/
theorem renderBody_eq (v : Word) (dp : Nat) : renderBody v dp =
    Spec.ascii ((Spec.paddedDigits v.toNat dp).take ((Spec.paddedDigits v.toNat dp).length - dp)) ++
      (if dp = 0 then []
       else pointChar :: Spec.ascii
        ((Spec.paddedDigits v.toNat dp).drop ((Spec.paddedDigits v.toNat dp).length - dp))) := by
  have hpos := length_decimalDigits_pos v.toNat
  have hlen : (Spec.ascii (Spec.decimalDigits v.toNat)).length = (Spec.decimalDigits v.toNat).length :=
    List.length_map _
  simp only [renderBody, digits_eq_ascii, hlen]
  split
  next hzero =>
    subst hzero
    rw [paddedDigits_of_lt hpos, Nat.sub_zero, List.take_length, List.append_nil]
  next hdp =>
    split
    next hlt =>
      rw [paddedDigits_of_lt hlt, Spec.ascii, Spec.ascii, Spec.ascii, List.map_take, List.map_drop, List.append_assoc,
        List.singleton_append]
    next hge =>
      have hpad : dp - (Spec.decimalDigits v.toNat).length + (Spec.decimalDigits v.toNat).length + 1 - dp = 1 := by
        omega
      rw [paddedDigits_of_ge (Nat.not_lt.1 hge), List.length_cons, List.length_append, List.length_replicate, hpad,
        List.take_succ_cons, List.take_zero, List.drop_succ_cons, List.drop_zero, ascii_append, ascii_singleton,
        ascii_replicate]
      rfl

/-- R167: `render` is the text of a sign, a 64-bit number and its decimal places. -/
theorem render_eq_text {v dp : Nat} (neg : Bool) (hv : v < 2 ^ 64) (hdp : dp < 16) :
    render (BitVec.ofNat 64 v) neg (BitVec.ofNat 4 dp) = Spec.text v neg dp := by
  have hvalue : (BitVec.ofNat 64 v).toNat = v := (BitVec.toNat_ofNat _ _).trans (Nat.mod_eq_of_lt hv)
  have hplaces : (BitVec.ofNat 4 dp).toNat = dp := (BitVec.toNat_ofNat _ _).trans (Nat.mod_eq_of_lt hdp)
  rw [render, renderBody_eq, hvalue, hplaces, ← List.append_assoc]
  rfl

/-- R165: NUM.DEC commits the token that `num_decode` answers. -/
theorem exec_numDec_of_ok {m : Mode} {s : State} {v n dp : Nat} {neg : Bool} (hf : s.fault = false)
    (h : numDecode m s = .ok ⟨BitVec.ofNat 64 v, neg, BitVec.ofNat 4 dp, n⟩) (hv : v < 2 ^ 64) (hdp : dp < 16) :
    exec (.numDec m) s = .next (Spec.committed s (Spec.text v neg dp) v n 0 neg dp) := by
  rw [exec_numDec, runCommand_ready _ _ hf, numDecCommand, h, ← render_eq_text neg hv hdp]
  rfl

/-- Settles O47: the magnitude is a whole VLE sequence where the lead byte's layout puts it. -/
theorem numDecCommits : Obligations.NumDecCommits := by
  intro m s r base neg dp n hf hlead hlayout hrun
  refine exec_numDec_of_ok hf ?_ (vleValue_lt_word hrun) (layout_places_lt hlayout)
  rw [numDecode_leadByte hlead hlayout, vleDecode_of_run hrun, Nat.add_comm base n]
  rfl

end Sys2Proof.Machine

/-! ### NUM.ENC: the VLE encoder and the token in plain arithmetic -/

namespace Sys2Proof.Machine

/-! Bytes as numbers. -/

/-- Two fields of a byte that do not overlap are joined by adding their numbers. -/
theorem byteOf_or_byteOf {k a b : Nat} (hb : b < 2 ^ k) :
    Spec.byteOf (2 ^ k * a) ||| Spec.byteOf b = Spec.byteOf (2 ^ k * a + b) := by
  rw [Nat.two_pow_add_eq_or_of_lt hb, Spec.byteOf, Spec.byteOf, Spec.byteOf, BitVec.ofNat_or]

theorem byteOf_toNat (b : Byte) : Spec.byteOf b.toNat = b := by
  rw [Spec.byteOf, BitVec.ofNat_toNat, BitVec.setWidth_eq]

theorem toNat_byteOf {n : Nat} (h : n < 256) : (Spec.byteOf n).toNat = n :=
  (BitVec.toNat_ofNat _ _).trans (Nat.mod_eq_of_lt h)

/-- A value's low `d` bits as a byte are its remainder by `2 ^ d`. -/
theorem lowByte_eq_byteOf {d : Nat} (hd : d ≤ 8) (v : Word) : lowByte d v = Spec.byteOf (v.toNat % 2 ^ d) := by
  have hpow : 2 ^ d ≤ 2 ^ 8 := Nat.pow_le_pow_right (by omega) hd
  apply BitVec.eq_of_toNat_eq
  rw [lowByte, BitVec.toNat_setWidth, BitVec.toNat_and, BitVec.toNat_ofNat,
    Nat.mod_eq_of_lt (a := 2 ^ d - 1) (by omega), Nat.and_two_pow_sub_one_eq_mod, Spec.byteOf, BitVec.toNat_ofNat]

theorem oneShiftLeft_eq_byteOf (d : Nat) : 1#8 <<< d = Spec.byteOf (2 ^ d) := by
  apply BitVec.eq_of_toNat_eq
  rw [BitVec.toNat_shiftLeft, Nat.shiftLeft_eq, Spec.byteOf, BitVec.toNat_ofNat, BitVec.toNat_ofNat, Nat.one_mod,
    Nat.one_mul]

/-- The rest of a value above its `d` low bits is 0 where those bits hold it. -/
theorem shiftRight_eq_zero_iff (v : Word) (d : Nat) : v >>> d = 0 ↔ v.toNat < 2 ^ d := by
  rw [← BitVec.toNat_inj, BitVec.toNat_ushiftRight, Nat.shiftRight_eq_div_pow]
  exact Nat.div_eq_zero_iff_lt (Nat.two_pow_pos d)

theorem toNat_shiftRight (v : Word) (d : Nat) : (v >>> d).toNat = v.toNat / 2 ^ d := by
  rw [BitVec.toNat_ushiftRight, Nat.shiftRight_eq_div_pow]

/-! The LEB chunk sequence (R101). -/

theorem base128_of_lt {v : Nat} (h : v < 128) : Spec.base128 v = [v] := by
  rcases Nat.eq_zero_or_pos v with rfl | hpos
  · rfl
  · rw [Spec.base128, if_neg hpos.ne', Nat.digits_of_lt 128 v hpos.ne' h]

theorem base128_of_ge {v : Nat} (h : 128 ≤ v) : Spec.base128 v = v % 128 :: Spec.base128 (v / 128) := by
  have hdiv : v / 128 ≠ 0 := by omega
  rw [Spec.base128, if_neg (by omega), Nat.digits_def' (by omega) (by omega), Spec.base128, if_neg hdiv]

theorem base128_ne_nil (v : Nat) : Spec.base128 v ≠ [] := by
  rcases Nat.lt_or_ge v 128 with h | h
  · simp [base128_of_lt h]
  · simp [base128_of_ge h]

theorem lebBytes_of_lt {v : Nat} (h : v < 128) : Spec.lebBytes v = [Spec.byteOf v] := by
  rw [Spec.lebBytes, base128_of_lt h]
  rfl

theorem lebBytes_of_ge {v : Nat} (h : 128 ≤ v) :
    Spec.lebBytes v = Spec.byteOf (v % 128 + 128) :: Spec.lebBytes (v / 128) := by
  have hrest := base128_ne_nil (v / 128)
  obtain ⟨c, cs, hcs⟩ := List.exists_cons_of_ne_nil hrest
  rw [Spec.lebBytes, Spec.lebBytes, base128_of_ge h, List.dropLast_cons_of_ne_nil hrest, List.map_cons,
    List.cons_append, hcs, List.getLastD_cons, List.getLastD_cons, List.getLastD_cons]

/-- R101: the machine's chunks, under a bound that holds the value, are the base-128 digits with their flags. -/
theorem lebChunks_eq_lebBytes {fuel : Nat} {v : Word} (h : v.toNat < 2 ^ (7 * fuel)) (hfuel : 0 < fuel) :
    lebChunks fuel v = Spec.lebBytes v.toNat := by
  induction fuel generalizing v with
  | zero => exact absurd hfuel (Nat.lt_irrefl 0)
  | succ fuel ih =>
    rw [lebChunks_succ, lowByte_eq_byteOf (by omega)]
    by_cases hv : v.toNat < 2 ^ 7
    · rw [if_pos ((shiftRight_eq_zero_iff v 7).2 hv), Nat.mod_eq_of_lt hv, lebBytes_of_lt hv]
    · have hflag : Spec.byteOf (v.toNat % 2 ^ 7) ||| 0x80 = Spec.byteOf (v.toNat % 128 + 128) := by
        rw [BitVec.or_comm, Nat.add_comm]
        exact byteOf_or_byteOf (k := 7) (a := 1) (Nat.mod_lt _ (by omega))
      have hrest : (v >>> 7).toNat < 2 ^ (7 * fuel) := by
        rw [toNat_shiftRight]
        exact Nat.div_lt_of_lt_mul (by rwa [← pow_add, Nat.add_comm 7])
      have hpos : 0 < fuel := Nat.pos_of_ne_zero (by rintro rfl; omega)
      rw [if_neg (mt (shiftRight_eq_zero_iff v 7).1 hv), hflag, ih hrest hpos, toNat_shiftRight,
        lebBytes_of_ge (Nat.not_lt.1 hv)]
      rfl

/-- R101: `leb`; ten chunks hold 64 bits (log entry 11). -/
theorem leb_eq_lebBytes (v : Word) : leb v = Spec.lebBytes v.toNat :=
  lebChunks_eq_lebBytes (by omega) (by omega)

/-! The shared first byte (R100, R104). -/

/-- The caller's bits above `k` low bits, and a number in those. -/
theorem keepAbove_or_byteOf {k n : Nat} (p : Byte) (hn : n < 2 ^ k) :
    keepAbove k p ||| Spec.byteOf n = Spec.byteOf (Spec.keep k p.toNat + n) := by
  rw [keepAbove_eq_byteOf, Spec.keep, Nat.mul_comm]
  exact byteOf_or_byteOf hn

theorem vleEncodeShared_eq {d : Nat} (hd : d < 8) (v : Word) (p : Byte) :
    vleEncodeShared (d + 1) v p = Spec.sharedBytes v.toNat (d + 1) p.toNat := by
  have hlow : v.toNat % 2 ^ d < 2 ^ d := Nat.mod_lt _ (Nat.two_pow_pos d)
  have hdouble : 2 ^ (d + 1) = 2 ^ d + 2 ^ d := by ring
  simp only [vleEncodeShared, Spec.sharedBytes, Nat.add_sub_cancel, lowByte_eq_byteOf hd.le, shiftRight_eq_zero_iff]
  split
  next hv => rw [Nat.mod_eq_of_lt hv, keepAbove_or_byteOf p (by omega)]
  next hv =>
    have hflag : 1#8 <<< d ||| Spec.byteOf (v.toNat % 2 ^ d) = Spec.byteOf (2 ^ d + v.toNat % 2 ^ d) := by
      rw [oneShiftLeft_eq_byteOf, ← Nat.mul_one (2 ^ d)]
      exact byteOf_or_byteOf (by rwa [Nat.mul_one])
    rw [BitVec.or_assoc, hflag, keepAbove_or_byteOf p (by omega), leb_eq_lebBytes, toNat_shiftRight, Nat.add_assoc]

/-- R100 to R104: `vle_encode` in plain arithmetic. -/
theorem vleEncode_eq_vleBytes (v : Word) (r : Reserved) (p : Byte) :
    vleEncode v r p = Spec.vleBytes v.toNat r p.toNat := by
  cases r with
  | r0 => exact leb_eq_lebBytes v
  | r1 =>
    rw [vleEncode, lowByte_eq_byteOf (by omega), keepAbove_or_byteOf p (Nat.mod_lt _ (Nat.two_pow_pos 1)),
      leb_eq_lebBytes, toNat_shiftRight]
    rfl
  | r4 => exact vleEncodeShared_eq (d := 3) (by omega) v p
  | r5 => exact vleEncodeShared_eq (d := 4) (by omega) v p
  | r6 => exact vleEncodeShared_eq (d := 5) (by omega) v p

/-! The lead byte of a token (R83 to R88). -/

/-- R84, R87: the lead byte with the sign in bit 5. -/
theorem toNat_signedTag (neg : Bool) : (numericTag ||| byteBit 5 neg).toNat = 0xC0 + 2 ^ 5 * neg.toNat := by
  cases neg <;> rfl

/-- R86: the lead byte of a UD token with decimal places, in bits 4 to 1. -/
theorem toNat_placesTag {dp : Byte} (h : dp.toNat ≤ 15) :
    (numericTag ||| byteBit 5 true ||| dp <<< 1).toNat = 0xC0 + 2 ^ 5 + 2 * dp.toNat := by
  have hplaces : dp <<< 1 = Spec.byteOf (2 * dp.toNat) := by
    apply BitVec.eq_of_toNat_eq
    rw [BitVec.toNat_shiftLeft, Nat.shiftLeft_eq, toNat_byteOf (by omega)]
    omega
  have htag : numericTag ||| byteBit 5 true = Spec.byteOf (2 ^ 5 * 7) := rfl
  rw [htag, hplaces, byteOf_or_byteOf (by omega), toNat_byteOf (by omega)]
  rfl

/-- R88: the lead byte of an SD token with decimal places, in bits 3 to 0. -/
theorem signedPlacesTag_eq_byteOf {neg : Bool} {dp : Byte} (h : dp.toNat ≤ 15) :
    numericTag ||| byteBit 5 neg ||| byteBit 4 true ||| dp =
      Spec.byteOf (0xC0 + 2 ^ 5 * neg.toNat + 2 ^ 4 + dp.toNat) := by
  have htag : numericTag ||| byteBit 5 neg ||| byteBit 4 true = Spec.byteOf (2 ^ 4 * (13 + 2 * neg.toNat)) := by
    cases neg <;> rfl
  rw [htag, ← byteOf_toNat dp, byteOf_or_byteOf (by omega), toNat_byteOf (by omega)]
  congr 1
  ring

/-- R151, R154, R156 to R160: the token of an accepted payload in plain arithmetic. -/
theorem numEncode_eq_tokenBytes {m : Mode} {v : Word} {neg : Bool} {dp : Byte} (hdp : dp.toNat ≤ 15) :
    numEncode m v neg dp = Spec.tokenBytes m v.toNat neg dp.toNat := by
  have hzero : dp = 0 ↔ dp.toNat = 0 := BitVec.toNat_inj.symm
  cases m with
  | ui => exact vleEncode_eq_vleBytes v .r6 numericTag
  | si => rw [numEncode, vleEncode_eq_vleBytes, toNat_signedTag, Spec.tokenBytes]
  | ud =>
    simp only [numEncode, Spec.tokenBytes, hzero, vleEncode_eq_vleBytes, toNat_placesTag hdp]
    rfl
  | sd =>
    simp only [numEncode, Spec.tokenBytes, hzero, vleEncode_eq_vleBytes, toNat_signedTag, signedPlacesTag_eq_byteOf hdp]
    rfl

/-- R153, R154: NUM.ENC emits the token where its operands pass the checks and the Mode does not decline them. -/
theorem numEncCommand_eq_emit {m : Mode} {s : State} (hdp : s.argDp.toNat ≤ 15)
    (hrep : Spec.representable m s.argNeg s.argDp.toNat)
    (hdec : ¬ Spec.declined m s.argValue.toNat s.argNeg s.argDp.toNat) :
    numEncCommand m s = endingEmit (Spec.tokenBytes m s.argValue.toNat s.argNeg s.argDp.toNat) := by
  rw [← unrepresentable_eq_false_iff] at hrep
  rw [← declines_eq_true_iff] at hdec
  rw [numEncCommand, if_neg (Nat.not_lt.2 hdp), hrep, if_neg Bool.false_ne_true, if_neg hdec,
    numEncode_eq_tokenBytes hdp]

/-- R104, R132, R154: an encode command commits what it emits and its length. -/
theorem exec_of_emit {i : Instr} {s : State} {emitted : List Byte} (hf : s.fault = false)
    (h : bodyOf i s = endingEmit emitted) :
    exec i s = .next (Spec.committed s emitted 0 emitted.length 0 false 0) := by
  rw [exec_eq_runCommand, runCommand_ready _ _ hf, h]
  rfl

/-- Settles O44: the operands pass every check, and the emitted token is the one in plain arithmetic. -/
theorem numEncCommits : Obligations.NumEncCommits := by
  intro m s hf hdp hrep hdec
  refine exec_of_emit hf ?_
  rw [bodyOf_numEnc, numEncCommand_eq_emit hdp hrep hdec]

end Sys2Proof.Machine

/-! ### The round trip of the VLE: the bytes of an encoding are a whole sequence of its value -/

namespace Sys2Proof.Machine

/-! Bytes that stand in the input. -/

/-- The bytes stand in the input from `pos` on, all inside IBUF_LEN. -/
def InputAt (s : State) (pos : Nat) : List Byte → Prop
  | [] => True
  | b :: bytes => (pos < s.ibufLen ∧ ibufByte s pos = b) ∧ InputAt s (pos + 1) bytes

theorem inputAt_of_getElem {s : State} {pos : Nat} {bytes : List Byte} (hlen : pos + bytes.length ≤ s.ibufLen)
    (h : ∀ i (hi : i < bytes.length), ibufByte s (pos + i) = bytes[i]) : InputAt s pos bytes := by
  induction bytes generalizing pos with
  | nil => trivial
  | cons b bytes ih =>
    rw [List.length_cons] at hlen
    refine ⟨⟨by omega, h 0 (Nat.succ_pos _)⟩, ih (by omega) fun i hi => ?_⟩
    rw [Nat.add_right_comm, Nat.add_assoc]
    exact h (i + 1) (Nat.succ_lt_succ hi)

/-! A chunk sequence and its first byte. -/

theorem chunkFits_succ {s : State} {pos d k : Nat} (h : Spec.chunkFits s (pos + 1) (d + 7) k) :
    Spec.chunkFits s pos d (k + 1) := by
  have hpos : pos + 1 + k = pos + (k + 1) := by omega
  have hoff : d + 7 + 7 * k = d + 7 * (k + 1) := by omega
  rwa [Spec.chunkFits, hpos, hoff] at h

theorem lebRun_one {s : State} {pos d : Nat} (hfits : Spec.chunkFits s pos d 0)
    (hflag : (ibufByte s pos).getLsbD 7 = false) : Spec.LebRun s pos d 1 := by
  refine ⟨Nat.one_pos, fun k hk => ?_⟩
  obtain rfl : k = 0 := by omega
  exact ⟨hfits, iff_of_false (by rw [Nat.add_zero, hflag]; exact Bool.false_ne_true) (Nat.lt_irrefl 1)⟩

/-- R101: a flagged chunk before a chunk sequence makes a chunk sequence. -/
theorem lebRun_succ {s : State} {pos d n : Nat} (hfits : Spec.chunkFits s pos d 0)
    (hflag : (ibufByte s pos).getLsbD 7 = true) (h : Spec.LebRun s (pos + 1) (d + 7) n) :
    Spec.LebRun s pos d (n + 1) := by
  obtain ⟨hn, hall⟩ := h
  refine ⟨Nat.succ_pos n, fun k hk => ?_⟩
  cases k with
  | zero => exact ⟨hfits, iff_of_true hflag (Nat.succ_lt_succ hn)⟩
  | succ k =>
    obtain ⟨hfits', hflag'⟩ := hall k (Nat.lt_of_succ_lt_succ hk)
    rw [Nat.add_right_comm, Nat.add_assoc] at hflag'
    exact ⟨chunkFits_succ hfits', hflag'.trans Nat.succ_lt_succ_iff.symm⟩

/-- The first chunk of a sum of chunks, taken out. -/
theorem lebValue_succ_first (s : State) (pos d n : Nat) :
    Spec.lebValue s pos d (n + 1) = Spec.chunkAt s pos d + Spec.lebValue s (pos + 1) (d + 7) n := by
  induction n with
  | zero => rw [lebValue_succ, lebValue_zero, lebValue_zero, Nat.zero_add]; rfl
  | succ n ih =>
    have hpos : pos + (n + 1) = pos + 1 + n := by omega
    have hoff : d + 7 * (n + 1) = d + 7 + 7 * n := by omega
    rw [lebValue_succ, ih, lebValue_succ s (pos + 1), hpos, hoff, Nat.add_assoc]

theorem getLsbD_byteOf {i : Nat} (hi : i < 8) (n : Nat) : (Spec.byteOf n).getLsbD i = n.testBit i := by
  rw [Spec.byteOf, BitVec.getLsbD_ofNat, decide_eq_true hi, Bool.true_and]

theorem chunkAt_of_eq_byteOf {s : State} {i n : Nat} (hn : n < 256) (h : ibufByte s i = Spec.byteOf n) (off : Nat) :
    Spec.chunkAt s i off = n % 128 * 2 ^ off := by
  rw [Spec.chunkAt, h, toNat_byteOf hn]

/-- R101, R108: the chunks of `v`, put at bit offset `d`, are a whole chunk sequence that adds up to `v` at that
offset. -/
theorem lebRun_of_inputAt {s : State} {v pos d : Nat} (h : InputAt s pos (Spec.lebBytes v)) (hd : d < 64)
    (hv : v * 2 ^ d < 2 ^ 64) :
    Spec.LebRun s pos d (Spec.lebBytes v).length ∧
      Spec.lebValue s pos d (Spec.lebBytes v).length = v * 2 ^ d := by
  induction v using Nat.strong_induction_on generalizing pos d with
  | _ v ih =>
    rcases Nat.lt_or_ge v 128 with hlt | hge
    · rw [lebBytes_of_lt hlt] at h ⊢
      obtain ⟨⟨hin, hbyte⟩, -⟩ := h
      have hchunk : Spec.chunkAt s pos d = v * 2 ^ d := by
        rw [chunkAt_of_eq_byteOf (by omega) hbyte, Nat.mod_eq_of_lt hlt]
      have hflag : (ibufByte s pos).getLsbD 7 = false := by
        rw [hbyte, getLsbD_byteOf (by omega), Nat.testBit_lt_two_pow hlt]
      refine ⟨lebRun_one ⟨hd, hin, hchunk ▸ hv⟩ hflag, ?_⟩
      rw [List.length_singleton, lebValue_succ_first, hchunk, lebValue_zero, Nat.add_zero]
    · rw [lebBytes_of_ge hge] at h ⊢
      obtain ⟨⟨hin, hbyte⟩, hrest⟩ := h
      have hlow : v % 128 < 2 ^ 7 := Nat.mod_lt v (by omega)
      have hsplit : v % 128 * 2 ^ d + v / 128 * 2 ^ (d + 7) = v * 2 ^ d := by
        calc v % 128 * 2 ^ d + v / 128 * 2 ^ (d + 7)
            = (v % 128 + 128 * (v / 128)) * 2 ^ d := by ring
          _ = v * 2 ^ d := by rw [Nat.mod_add_div]
      have hchunk : Spec.chunkAt s pos d = v % 128 * 2 ^ d := by
        rw [chunkAt_of_eq_byteOf (by omega) hbyte, Nat.add_mod_right, Nat.mod_mod]
      have hflag : (ibufByte s pos).getLsbD 7 = true := by
        rw [hbyte, getLsbD_byteOf (by omega), Nat.add_comm]
        exact (Nat.testBit_two_pow_add_eq _ 7).trans (by rw [Nat.testBit_lt_two_pow hlow]; rfl)
      have hoff : d + 7 < 64 := by
        rw [← Nat.pow_lt_pow_iff_right (Nat.one_lt_two)]
        have := Nat.mul_le_mul_right (2 ^ (d + 7)) (show 1 ≤ v / 128 by omega)
        omega
      obtain ⟨hrun, hval⟩ := ih (v / 128) (by omega) hrest hoff (by omega)
      refine ⟨lebRun_succ ⟨hd, hin, ?_⟩ hflag hrun, ?_⟩
      · exact lt_of_le_of_lt (hchunk ▸ Nat.le.intro hsplit) hv
      · rw [List.length_cons, lebValue_succ_first, hchunk, hval, hsplit]

/-! The first byte, which the caller's bits and the low bits of a value share (R100). -/

theorem keep_add_lt {k p n : Nat} (hk : k ≤ 8) (hp : p < 256) (hn : n < 2 ^ k) : Spec.keep k p + n < 256 := by
  have hpow : 2 ^ (8 - k) * 2 ^ k = 256 := by
    rw [← pow_add, Nat.sub_add_cancel hk]
    rfl
  have hquot : p / 2 ^ k + 1 ≤ 2 ^ (8 - k) := (Nat.div_lt_iff_lt_mul (Nat.two_pow_pos k)).2 (hpow ▸ hp)
  have hmul := Nat.mul_le_mul_right (2 ^ k) hquot
  rw [hpow, Nat.succ_mul] at hmul
  unfold Spec.keep
  omega

theorem keep_add_mod {k p n : Nat} (hn : n < 2 ^ k) : (Spec.keep k p + n) % 2 ^ k = n := by
  rw [Spec.keep, Nat.mul_add_mod', Nat.mod_eq_of_lt hn]

theorem keep_keep_add {k p n : Nat} (hn : n < 2 ^ k) : Spec.keep k (Spec.keep k p + n) = Spec.keep k p := by
  have hquot : (p / 2 ^ k * 2 ^ k + n) / 2 ^ k = p / 2 ^ k := by
    rw [Nat.mul_comm, Nat.mul_add_div (Nat.two_pow_pos k), Nat.div_eq_of_lt hn, Nat.add_zero]
  simp only [Spec.keep, hquot]

theorem testBit_keep_add {i k p n : Nat} (hi : i < k) (hn : n < 2 ^ k) :
    (Spec.keep k p + n).testBit i = n.testBit i := by
  have h := Nat.testBit_mod_two_pow (Spec.keep k p + n) k i
  rw [keep_add_mod hn] at h
  simpa [hi] using h.symm

theorem firstByte_mod {b p : Byte} {k n : Nat} (hk : k ≤ 8) (hn : n < 2 ^ k)
    (h : b = Spec.byteOf (Spec.keep k p.toNat + n)) : b.toNat % 2 ^ k = n := by
  rw [h, toNat_byteOf (keep_add_lt hk p.isLt hn), keep_add_mod hn]

theorem keep_firstByte {b p : Byte} {k n : Nat} (hk : k ≤ 8) (hn : n < 2 ^ k)
    (h : b = Spec.byteOf (Spec.keep k p.toNat + n)) : Spec.keep k b.toNat = Spec.keep k p.toNat := by
  rw [h, toNat_byteOf (keep_add_lt hk p.isLt hn), keep_keep_add hn]

/-- R100: the flag above the data bits, and the data bits, of a first byte that holds `n` below the caller's bits. -/
theorem sharedByte_fields {b p : Byte} {d n : Nat} (hd : d < 8) (hn : n < 2 ^ (d + 1))
    (h : b = Spec.byteOf (Spec.keep (d + 1) p.toNat + n)) :
    b.getLsbD d = n.testBit d ∧ b.toNat % 2 ^ d = n % 2 ^ d := by
  constructor
  · rw [h, getLsbD_byteOf hd, testBit_keep_add (Nat.lt_succ_self d) hn]
  · rw [← Nat.mod_mod_of_dvd b.toNat (pow_dvd_pow 2 (Nat.le_succ d)), firstByte_mod hd hn h]

/-- R100, R104, R111: a shared encoding in the input is a whole sequence of its value. -/
theorem sharedRun_of_inputAt {s : State} {base d v : Nat} {p : Byte} (hd : d < 8) (hv : v < 2 ^ 64)
    (h : InputAt s base (Spec.sharedBytes v (d + 1) p.toNat)) :
    Spec.SharedRun s base (d + 1) (Spec.sharedBytes v (d + 1) p.toNat).length ∧
      (ibufByte s base).toNat % 2 ^ d +
        Spec.lebValue s (base + 1) d ((Spec.sharedBytes v (d + 1) p.toNat).length - 1) = v := by
  have hdouble : 2 ^ (d + 1) = 2 ^ d + 2 ^ d := by ring
  unfold Spec.SharedRun
  unfold Spec.sharedBytes at h ⊢
  rw [Nat.add_sub_cancel] at h ⊢
  split at h
  next hlt =>
    obtain ⟨⟨hin, hbyte⟩, -⟩ := h
    obtain ⟨hflag, hlow⟩ := sharedByte_fields hd (by omega) hbyte
    rw [Nat.testBit_lt_two_pow hlt] at hflag
    rw [Nat.mod_eq_of_lt hlt] at hlow
    rw [if_pos hlt, hflag, if_neg Bool.false_ne_true, hlow]
    exact ⟨⟨hin, rfl⟩, rfl⟩
  next hge =>
    obtain ⟨⟨hin, hbyte⟩, hrest⟩ := h
    have hmod : v % 2 ^ d < 2 ^ d := Nat.mod_lt v (Nat.two_pow_pos d)
    rw [Nat.add_assoc] at hbyte
    obtain ⟨hflag, hlow⟩ := sharedByte_fields hd (by omega) hbyte
    rw [Nat.testBit_two_pow_add_eq, Nat.testBit_lt_two_pow hmod, Bool.not_false] at hflag
    rw [Nat.add_mod_left, Nat.mod_mod] at hlow
    obtain ⟨hrun, hval⟩ := lebRun_of_inputAt hrest (by omega) (lt_of_le_of_lt (Nat.div_mul_le_self v _) hv)
    rw [if_neg hge, if_pos hflag, List.length_cons, Nat.add_sub_cancel, hlow, hval, Nat.mod_add_div']
    exact ⟨⟨hin, Nat.succ_lt_succ hrun.1, hrun⟩, rfl⟩

/-- R100 to R104, R111: an encoding in the input is a whole sequence of its value. -/
theorem vleRun_of_inputAt {s : State} {base v : Nat} {r : Reserved} {p : Byte} (hv : v < 2 ^ 64)
    (h : InputAt s base (Spec.vleBytes v r p.toNat)) :
    Spec.VleRun s base r (Spec.vleBytes v r p.toNat).length ∧
      Spec.vleValue s base r (Spec.vleBytes v r p.toNat).length = v := by
  cases r with
  | r0 => exact (lebRun_of_inputAt (d := 0) h (by omega) (by omega)).imp_right fun hval => hval.trans (Nat.mul_one v)
  | r1 =>
    obtain ⟨⟨hin, hbyte⟩, hrest⟩ := h
    have hlow := firstByte_mod (k := 1) (by omega) (Nat.mod_lt v (by omega)) hbyte
    obtain ⟨hrun, hval⟩ := lebRun_of_inputAt (d := 1) hrest (by omega) (by omega)
    refine ⟨⟨hin, Nat.succ_lt_succ hrun.1, hrun⟩, ?_⟩
    exact (congrArg₂ (· + ·) hlow hval).trans (Nat.mod_add_div' v 2)
  | r4 => exact sharedRun_of_inputAt (d := 3) (by omega) hv h
  | r5 => exact sharedRun_of_inputAt (d := 4) (by omega) hv h
  | r6 => exact sharedRun_of_inputAt (d := 5) (by omega) hv h

theorem sharedBytes_eq_cons (v d p : Nat) :
    ∃ n rest, n < 2 ^ (d + 1) ∧ Spec.sharedBytes v (d + 1) p = Spec.byteOf (Spec.keep (d + 1) p + n) :: rest := by
  have hdouble : 2 ^ (d + 1) = 2 ^ d + 2 ^ d := by ring
  have hmod : v % 2 ^ d < 2 ^ d := Nat.mod_lt v (Nat.two_pow_pos d)
  unfold Spec.sharedBytes
  rw [Nat.add_sub_cancel]
  split
  next hlt => exact ⟨v, [], by omega, rfl⟩
  next => exact ⟨2 ^ d + v % 2 ^ d, _, by omega, by rw [Nat.add_assoc]⟩

/-- R100: where a byte is shared, an encoding begins with the caller's bits above r bits of its own. -/
theorem vleBytes_eq_cons {r : Reserved} (hr : r ≠ .r0) (v p : Nat) :
    ∃ n rest, n < 2 ^ r.count ∧ Spec.vleBytes v r p = Spec.byteOf (Spec.keep r.count p + n) :: rest := by
  cases r with
  | r0 => exact absurd rfl hr
  | r1 => exact ⟨v % 2, _, Nat.mod_lt v (by omega), rfl⟩
  | r4 => exact sharedBytes_eq_cons v 3 p
  | r5 => exact sharedBytes_eq_cons v 4 p
  | r6 => exact sharedBytes_eq_cons v 5 p

/-- R104, R110: the first byte of an encoding still has the caller's bits it was made with. -/
theorem keep_firstByte_of_inputAt {s : State} {base v : Nat} {r : Reserved} {p : Byte} (hr : r ≠ .r0)
    (h : InputAt s base (Spec.vleBytes v r p.toNat)) :
    Spec.keep r.count (ibufByte s base).toNat = Spec.keep r.count p.toNat := by
  obtain ⟨n, rest, hn, hcons⟩ := vleBytes_eq_cons hr v p.toNat
  rw [hcons] at h
  obtain ⟨⟨-, hbyte⟩, -⟩ := h
  exact keep_firstByte (by cases r <;> decide) hn hbyte

/-- Settles O35: the emitted bytes are a whole sequence of the value, which `vle_decode` takes wherever it stands. -/
theorem vleRoundTrip : Obligations.VleRoundTrip := by
  intro s r v p hlen hbytes
  have hinput : InputAt s 0 (Spec.vleBytes v.toNat r p.toNat) := by
    rw [← vleEncode_eq_vleBytes]
    exact inputAt_of_getElem (by rwa [Nat.zero_add]) fun i hi => by rw [Nat.zero_add, hbytes i hi]
  obtain ⟨hrun, hval⟩ := vleRun_of_inputAt v.isLt hinput
  have hdec := vleDecode_of_run hrun
  rw [hval, ← vleEncode_eq_vleBytes] at hdec
  refine ⟨by rw [hdec, BitVec.ofNat_toNat, BitVec.setWidth_eq], fun hf => ?_⟩
  have hpre : (if r = .r0 then 0 else Spec.keep r.count (ibufByte s 0).toNat) =
      if r = .r0 then 0 else Spec.keep r.count p.toNat :=
    ite_congr rfl (fun _ => rfl) fun hr => keep_firstByte_of_inputAt hr hinput
  rw [exec_vleDec_of_ok hf hdec, hpre]

end Sys2Proof.Machine

/-! ### VLE.ENC: the command's end, and the length and the last byte of its encodings -/

namespace Sys2Proof.Machine

/-- Settles O28: `vle_encode` emits the bytes that plain arithmetic gives. -/
theorem vleEncCommits : Obligations.VleEncCommits := by
  intro r s hf
  refine exec_of_emit hf ?_
  rw [bodyOf_vleEnc, vleEncCommand, vleEncode_eq_vleBytes]

/-! The length of a chunk sequence (R101). -/

/-- R101: `n` chunks of seven bits hold exactly the values below `2 ^ (7 * n)`. -/
theorem lebLen_le_iff {v n : Nat} (hn : 0 < n) : Spec.lebLen v ≤ n ↔ v < 2 ^ (7 * n) := by
  rw [← Nat.size_le, Spec.lebLen]
  omega

theorem lebLen_of_lt {v : Nat} (h : v < 128) : Spec.lebLen v = 1 :=
  le_antisymm ((lebLen_le_iff Nat.one_pos).2 h) (Nat.le_max_left _ _)

theorem size_div_two_pow (v d : Nat) : Nat.size (v / 2 ^ d) = Nat.size v - d :=
  eq_of_forall_ge_iff fun n => by
    rw [Nat.size_le, Nat.div_lt_iff_lt_mul (Nat.two_pow_pos d), ← pow_add, ← Nat.size_le, Nat.sub_le_iff_le_add]

theorem lebLen_of_ge {v : Nat} (h : 128 ≤ v) : Spec.lebLen v = 1 + Spec.lebLen (v / 2 ^ 7) := by
  have hsize : 7 < Nat.size v := Nat.lt_size.2 h
  rw [Spec.lebLen, Spec.lebLen, size_div_two_pow]
  omega

theorem length_lebBytes (v : Nat) : (Spec.lebBytes v).length = Spec.lebLen v := by
  induction v using Nat.strong_induction_on with
  | _ v ih =>
    rcases Nat.lt_or_ge v 128 with hlt | hge
    · rw [lebBytes_of_lt hlt, lebLen_of_lt hlt, List.length_singleton]
    · rw [lebBytes_of_ge hge, lebLen_of_ge hge, List.length_cons, ih (v / 128) (by omega), Nat.add_comm]
      rfl

/-- Settles O27: the base-128 digits peel off one at a time, and the length counts them. -/
theorem lebIsItsChunkSequence : Obligations.LebIsItsChunkSequence := by
  refine ⟨fun v => ?_, fun v => ?_, fun v => ?_, by decide, by decide⟩
  · rw [leb_eq_lebBytes, leb_eq_lebBytes, toNat_shiftRight]
    split
    next hlt => exact lebBytes_of_lt hlt
    next hge => exact lebBytes_of_ge (Nat.not_lt.1 hge)
  · rw [leb_eq_lebBytes, length_lebBytes]
  · split
    next hlt => exact lebLen_of_lt hlt
    next hge => exact lebLen_of_ge (Nat.not_lt.1 hge)

/-! The length of an encoding (R105, R106). -/

theorem length_sharedBytes (v d p : Nat) :
    (Spec.sharedBytes v (d + 1) p).length = if v < 2 ^ d then 1 else 1 + Spec.lebLen (v / 2 ^ d) := by
  rw [Spec.sharedBytes, Nat.add_sub_cancel]
  split
  next => rfl
  next => rw [List.length_cons, length_lebBytes, Nat.add_comm]

/-- Settles O29: the first byte, where there is one, and the chunks after it. -/
theorem vleEncodeLength : Obligations.VleEncodeLength := by
  intro v p
  simp only [vleEncode_eq_vleBytes]
  refine ⟨length_lebBytes _, ?_, length_sharedBytes _ 3 _, length_sharedBytes _ 4 _, length_sharedBytes _ 5 _⟩
  rw [Spec.vleBytes, List.length_cons, length_lebBytes, Nat.add_comm]

/-- R100 to R103: how many bits of the value the first byte of an encoding holds. -/
def firstBits : Reserved → Nat
  | .r0 => 7
  | .r1 => 1
  | .r4 => 3
  | .r5 => 4
  | .r6 => 5

theorem one_add_lebLen_le_iff {v d n : Nat} (hn : 0 < n) :
    1 + Spec.lebLen (v / 2 ^ d) ≤ n + 1 ↔ v < 2 ^ (d + 7 * n) := by
  rw [Nat.add_comm 1, Nat.add_le_add_iff_right, lebLen_le_iff hn, Nat.div_lt_iff_lt_mul (Nat.two_pow_pos d), ← pow_add,
    Nat.add_comm d]

theorem length_sharedBytes_le_iff {v d p n : Nat} (hn : 0 < n) :
    (Spec.sharedBytes v (d + 1) p).length ≤ n + 1 ↔ v < 2 ^ (d + 7 * n) := by
  rw [length_sharedBytes]
  split
  next hlt => exact iff_of_true (by omega) (hlt.trans_le (Nat.pow_le_pow_right (by omega) (Nat.le_add_right d _)))
  next => exact one_add_lebLen_le_iff hn

/-- R105: a first byte and `n` chunks hold exactly the values of their bits. -/
theorem length_vleEncode_le_iff {v : Word} {r : Reserved} {p : Byte} {n : Nat} (hn : 0 < n) :
    (vleEncode v r p).length ≤ n + 1 ↔ v.toNat < 2 ^ (firstBits r + 7 * n) := by
  rw [vleEncode_eq_vleBytes]
  cases r with
  | r0 =>
    rw [Spec.vleBytes, length_lebBytes, lebLen_le_iff (Nat.succ_pos n), Nat.mul_succ, Nat.add_comm]
    rfl
  | r1 =>
    rw [Spec.vleBytes, List.length_cons, length_lebBytes, Nat.add_comm]
    exact one_add_lebLen_le_iff (d := 1) hn
  | r4 => exact length_sharedBytes_le_iff (d := 3) hn
  | r5 => exact length_sharedBytes_le_iff (d := 4) hn
  | r6 => exact length_sharedBytes_le_iff (d := 5) hn

theorem length_vleEncode_eq {v : Word} {r : Reserved} {n : Nat} (p : Byte) (hn : 0 < n)
    (hlo : 2 ^ (firstBits r + 7 * n) ≤ v.toNat) (hhi : v.toNat < 2 ^ (firstBits r + 7 * (n + 1))) :
    (vleEncode v r p).length = n + 2 :=
  le_antisymm ((length_vleEncode_le_iff (Nat.succ_pos n)).2 hhi)
    (Nat.lt_of_not_le (mt (length_vleEncode_le_iff hn).1 (Nat.not_lt.2 hlo)))

/-- Settles O30: nine chunks after the first byte hold 64 bits, and the named values lie between the bounds of two
lengths. -/
theorem vleLengthBounds : Obligations.VleLengthBounds := by
  refine ⟨fun v r p => ?_, fun r p => ?_, fun r p => ?_⟩
  · have hbits : 1 ≤ firstBits r := by cases r <;> decide
    refine (length_vleEncode_le_iff (n := 9) (by omega)).2 (v.isLt.trans_le ?_)
    exact Nat.pow_le_pow_right (by omega) (by omega)
  · exact length_vleEncode_eq (n := 8) p (by omega) (by cases r <;> decide) (by cases r <;> decide)
  · cases r with
    | r0 => exact length_vleEncode_eq (n := 7) p (by omega) (by decide) (by decide)
    | r1 => exact length_vleEncode_eq (n := 8) p (by omega) (by decide) (by decide)
    | r4 => exact length_vleEncode_eq (n := 8) p (by omega) (by decide) (by decide)
    | r5 => exact length_vleEncode_eq (n := 7) p (by omega) (by decide) (by decide)
    | r6 => exact length_vleEncode_eq (n := 7) p (by omega) (by decide) (by decide)

/-! The last byte of an encoding (R107). -/

/-- R107: the last chunk of a value that is not 0 is not 0. -/
theorem lebBytes_last_ne_zero {v : Nat} (hv : v ≠ 0) (b : Byte) :
    ((Spec.lebBytes v).getLastD b).toNat % 128 ≠ 0 := by
  induction v using Nat.strong_induction_on generalizing b with
  | _ v ih =>
    rcases Nat.lt_or_ge v 128 with hlt | hge
    · rw [lebBytes_of_lt hlt, List.getLastD_cons, List.getLastD_nil, toNat_byteOf (by omega), Nat.mod_eq_of_lt hlt]
      exact hv
    · rw [lebBytes_of_ge hge, List.getLastD_cons]
      exact ih (v / 128) (by omega) (by omega) _

theorem sharedBytes_minimal (v d p : Nat) :
    (Spec.sharedBytes v (d + 1) p).length = 1 ∨ ((Spec.sharedBytes v (d + 1) p).getLastD 0).toNat % 128 ≠ 0 := by
  rw [Spec.sharedBytes, Nat.add_sub_cancel]
  split
  next => exact .inl rfl
  next hge =>
    have hrest : v / 2 ^ d ≠ 0 := mt (Nat.div_eq_zero_iff_lt (Nat.two_pow_pos d)).1 hge
    rw [List.getLastD_cons]
    exact .inr (lebBytes_last_ne_zero hrest _)

/-- Settles O31: what follows the first byte encodes a value that is not 0, but for r = 1 below 2. -/
theorem vleEncodeIsMinimal : Obligations.VleEncodeIsMinimal := by
  intro v r p
  rw [vleEncode_eq_vleBytes]
  split
  next hexcept =>
    obtain ⟨rfl, hv⟩ := hexcept
    exact ⟨_, by rw [Spec.vleBytes, Nat.div_eq_of_lt hv, lebBytes_of_lt (by omega)]; rfl⟩
  next hexcept =>
    cases r with
    | r0 =>
      rcases Nat.eq_zero_or_pos v.toNat with hv | hv
      · exact .inl (by rw [hv]; rfl)
      · exact .inr (lebBytes_last_ne_zero hv.ne' 0)
    | r1 =>
      have hv : v.toNat / 2 ≠ 0 := fun hzero => hexcept ⟨rfl, by omega⟩
      rw [Spec.vleBytes, List.getLastD_cons]
      exact .inr (lebBytes_last_ne_zero hv _)
    | r4 => exact sharedBytes_minimal _ 3 _
    | r5 => exact sharedBytes_minimal _ 4 _
    | r6 => exact sharedBytes_minimal _ 5 _

end Sys2Proof.Machine

/-! ### VLE.DEC: every input is a whole sequence or stops the reading -/

namespace Sys2Proof.Machine

/-- R108: offsets end at 64, so the loop comes to a byte that it does not go past. -/
theorem exists_lebReaches_end (s : State) (pos d : Nat) :
    ∃ k, LebReaches s pos d k ∧ ¬ (Spec.chunkFits s pos d k ∧ (ibufByte s (pos + k)).getLsbD 7 = true) := by
  have hend : ∃ k, ¬ (Spec.chunkFits s pos d k ∧ (ibufByte s (pos + k)).getLsbD 7 = true) :=
    ⟨10, fun ⟨⟨hoff, _⟩, _⟩ => by omega⟩
  exact ⟨Nat.find hend, fun _ hj => not_not.1 (Nat.find_min hend hj), Nat.find_spec hend⟩

theorem LebReaches.run {s : State} {pos d k : Nat} (h : LebReaches s pos d k) (hfits : Spec.chunkFits s pos d k)
    (hflag : ¬ (ibufByte s (pos + k)).getLsbD 7 = true) : Spec.LebRun s pos d (k + 1) := by
  refine ⟨Nat.succ_pos k, fun j hj => ?_⟩
  rcases Nat.lt_succ_iff_lt_or_eq.1 hj with hlt | rfl
  · obtain ⟨hfits', hflag'⟩ := h j hlt
    exact ⟨hfits', iff_of_true hflag' (Nat.succ_lt_succ hlt)⟩
  · exact ⟨hfits, iff_of_false hflag (Nat.lt_irrefl _)⟩

/-- R206: the first check that a byte fails gives the error. -/
theorem LebReaches.stops {s : State} {pos d k : Nat} (h : LebReaches s pos d k) (hfits : ¬ Spec.chunkFits s pos d k) :
    ∃ e, Spec.LebStops s pos d k e := by
  rcases Nat.lt_or_ge (d + 7 * k) 64 with hoff | hoff
  · rcases Nat.lt_or_ge (pos + k) s.ibufLen with hread | hread
    · exact ⟨3, h, .inr (.inr ⟨hoff, hread, Nat.not_lt.1 fun hchunk => hfits ⟨hoff, hread, hchunk⟩, rfl⟩)⟩
    · exact ⟨2, h, .inr (.inl ⟨hoff, hread, rfl⟩)⟩
  · exact ⟨3, h, .inl ⟨hoff, rfl⟩⟩

theorem exists_lebRun_or_lebStops (s : State) (pos d : Nat) :
    (∃ n, Spec.LebRun s pos d n) ∨ ∃ k e, Spec.LebStops s pos d k e := by
  obtain ⟨k, hreach, hend⟩ := exists_lebReaches_end s pos d
  by_cases hfits : Spec.chunkFits s pos d k
  · exact .inl ⟨k + 1, hreach.run hfits fun hflag => hend ⟨hfits, hflag⟩⟩
  · exact .inr ⟨k, hreach.stops hfits⟩

/-- R111: a shared first byte ends the sequence, or its continuation bytes do one of the two. -/
theorem exists_sharedRun_or_stops (s : State) (base r : Nat) :
    (∃ n, Spec.SharedRun s base r n) ∨ ∃ k e, (s.ibufLen ≤ base ∧ e = 2) ∨
      (base < s.ibufLen ∧ (ibufByte s base).getLsbD (r - 1) = true ∧ Spec.LebStops s (base + 1) (r - 1) k e) := by
  rcases Nat.lt_or_ge base s.ibufLen with hin | hout
  · by_cases hflag : (ibufByte s base).getLsbD (r - 1) = true
    · rcases exists_lebRun_or_lebStops s (base + 1) (r - 1) with ⟨n, hrun⟩ | ⟨k, e, hstop⟩
      · refine .inl ⟨n + 1, hin, ?_⟩
        rw [if_pos hflag]
        exact ⟨Nat.succ_lt_succ hrun.1, hrun⟩
      · exact .inr ⟨k, e, .inr ⟨hin, hflag, hstop⟩⟩
    · exact .inl ⟨1, hin, by rw [if_neg hflag]⟩
  · exact .inr ⟨0, 2, .inl ⟨hout, rfl⟩⟩

/-- R108, R111: a whole sequence begins at `base`, or the reading stops at some byte. -/
theorem exists_vleRun_or_vleStops (s : State) (base : Nat) (r : Reserved) :
    (∃ n, Spec.VleRun s base r n) ∨ ∃ k e, Spec.VleStops s base r k e := by
  cases r with
  | r0 => exact exists_lebRun_or_lebStops s base 0
  | r1 =>
    rcases Nat.lt_or_ge base s.ibufLen with hin | hout
    · rcases exists_lebRun_or_lebStops s (base + 1) 1 with ⟨n, hrun⟩ | ⟨k, e, hstop⟩
      · exact .inl ⟨n + 1, hin, Nat.succ_lt_succ hrun.1, hrun⟩
      · exact .inr ⟨k, e, .inr ⟨hin, hstop⟩⟩
    · exact .inr ⟨0, 2, .inl ⟨hout, rfl⟩⟩
  | r4 => exact exists_sharedRun_or_stops s base 4
  | r5 => exact exists_sharedRun_or_stops s base 5
  | r6 => exact exists_sharedRun_or_stops s base 6

/-- Settles O34: the command commits a whole sequence (`vleDecCommits`) and raises what stops another reading
(`vleDecRaises`). -/
theorem everyVleInputDecodesOrStops : Obligations.EveryVleInputDecodesOrStops := by
  intro r s hf
  rcases exists_vleRun_or_vleStops s 0 r with ⟨n, hrun⟩ | ⟨k, e, hstop⟩
  · exact .inl ⟨n, hrun, vleDecCommits r s n hf hrun⟩
  · exact .inr ⟨k, e, hstop, vleDecRaises r s k e hf hstop⟩

end Sys2Proof.Machine

/-! ### The decoders: an answer comes from the bytes that it counts -/

namespace Sys2Proof.Machine

/-- `s'` has the first `n` bytes of the input of `s`, all inside its IBUF_LEN. -/
def SameInput (s s' : State) (n : Nat) : Prop :=
  n ≤ s'.ibufLen ∧ ∀ k, k < n → ibufByte s' k = ibufByte s k

theorem SameInput.mono {s s' : State} {m n : Nat} (h : SameInput s s' n) (hle : m ≤ n) : SameInput s s' m :=
  ⟨hle.trans h.1, fun k hk => h.2 k (hk.trans_le hle)⟩

theorem inByte_of_sameInput {s s' : State} {i n : Nat} {b : Byte} (h : inByte s i = .ok b) (hs : SameInput s s' n)
    (hi : i < n) : inByte s' i = .ok b := by
  obtain ⟨hlen, hbytes⟩ := hs
  unfold inByte at h
  split at h
  next => cases h
  next => rw [inByte_inside (hi.trans_le hlen), hbytes i hi, h]

/-- In `s` the decoder answers `p` from `p.2` bytes from `base` on: at least one, at most `most`, and no others, since it
answers the same wherever those bytes stand. -/
def AnswersFrom (dec : State → Except ErrCode (Word × Nat)) (s : State) (base most : Nat) (p : Word × Nat) : Prop :=
  (0 < p.2 ∧ p.2 ≤ most) ∧ ∀ s', SameInput s s' (base + p.2) → dec s' = .ok p

theorem except_map_eq_ok {α β : Type} {f : α → β} {x : Except ErrCode α} {y : β} :
    x.map f = .ok y ↔ ∃ a, x = .ok a ∧ f a = y := by
  cases x <;> simp [Except.map]

/-- R108: a round that does not stop the loop reads one byte, and does the same wherever that byte is read. -/
theorem lebDecodeFrom_ok_round {s : State} {pos d fuel k : Nat} {acc : Word} {p : Word × Nat}
    (h : lebDecodeFrom s pos d (fuel + 1) k acc = .ok p) :
    ∃ b acc', inByte s (pos + k) = .ok b ∧ ∀ s', inByte s' (pos + k) = .ok b →
      lebDecodeFrom s' pos d (fuel + 1) k acc =
        if b.getLsbD 7 then lebDecodeFrom s' pos d fuel (k + 1) acc' else .ok (acc', k + 1) := by
  simp only [lebDecodeFrom] at h ⊢
  split at h
  next => cases h
  next hoff =>
    cases hb : inByte s (pos + k) with
    | error e =>
      rw [hb] at h
      cases h
    | ok b =>
      simp only [hb] at h
      split at h
      next => cases h
      next hrange =>
        exact ⟨b, acc ||| lowBits Config.chunkBits b <<< (d + Config.chunkBits * k), rfl,
          fun s' hs' => by simp only [hs', if_neg hoff, if_neg hrange]⟩

theorem lebDecodeFrom_ok {s : State} {pos d fuel k : Nat} {acc : Word} {p : Word × Nat}
    (h : lebDecodeFrom s pos d fuel k acc = .ok p) :
    (k < p.2 ∧ p.2 ≤ k + fuel) ∧
      ∀ s', SameInput s s' (pos + p.2) → lebDecodeFrom s' pos d fuel k acc = .ok p := by
  induction fuel generalizing k acc with
  | zero => cases h
  | succ fuel ih =>
    obtain ⟨b, acc', hbyte, hround⟩ := lebDecodeFrom_ok_round h
    rw [hround s hbyte] at h
    split at h
    next hflag =>
      obtain ⟨⟨hlo, hhi⟩, hsame⟩ := ih h
      refine ⟨⟨by omega, by omega⟩, fun s' hs => ?_⟩
      rw [hround s' (inByte_of_sameInput hbyte hs (by omega)), if_pos hflag, hsame s' hs]
    next hflag =>
      cases h
      refine ⟨⟨by omega, by omega⟩, fun s' hs => ?_⟩
      rw [hround s' (inByte_of_sameInput hbyte hs (by omega)), if_neg hflag]

theorem lebDecode_answersFrom {s : State} {pos d : Nat} {acc : Word} {p : Word × Nat}
    (h : lebDecode s pos d acc = .ok p) : AnswersFrom (lebDecode · pos d acc) s pos 11 p := by
  obtain ⟨⟨hlo, hhi⟩, hsame⟩ := lebDecodeFrom_ok h
  exact ⟨⟨hlo, by omega⟩, hsame⟩

theorem vleDecodeOne_answersFrom {s : State} {base : Nat} {p : Word × Nat} (h : vleDecodeOne s base = .ok p) :
    AnswersFrom (vleDecodeOne · base) s base 12 p := by
  unfold vleDecodeOne at h
  cases hb : inByte s base with
  | error e =>
    rw [hb] at h
    cases h
  | ok b =>
    rw [hb] at h
    obtain ⟨q, hq, rfl⟩ := except_map_eq_ok.1 h
    obtain ⟨⟨hlo, hhi⟩, hsame⟩ := lebDecode_answersFrom hq
    refine ⟨⟨Nat.succ_pos _, Nat.succ_le_succ hhi⟩, fun s' hs => ?_⟩
    simp only [vleDecodeOne, inByte_of_sameInput hb hs (by omega), hsame s' (hs.mono (by omega)), Except.map]

theorem vleDecodeShared_answersFrom {s : State} {base r : Nat} {p : Word × Nat}
    (h : vleDecodeShared s base r = .ok p) : AnswersFrom (vleDecodeShared · base r) s base 12 p := by
  unfold vleDecodeShared at h
  cases hb : inByte s base with
  | error e =>
    rw [hb] at h
    cases h
  | ok b =>
    simp only [hb] at h
    split at h
    next hflag =>
      obtain ⟨q, hq, rfl⟩ := except_map_eq_ok.1 h
      obtain ⟨⟨hlo, hhi⟩, hsame⟩ := lebDecode_answersFrom hq
      refine ⟨⟨Nat.succ_pos _, Nat.succ_le_succ hhi⟩, fun s' hs => ?_⟩
      simp only [vleDecodeShared, inByte_of_sameInput hb hs (by omega), if_pos hflag, hsame s' (hs.mono (by omega)),
        Except.map]
    next hflag =>
      cases h
      refine ⟨⟨by omega, by omega⟩, fun s' hs => ?_⟩
      simp only [vleDecodeShared, inByte_of_sameInput hb hs (by omega), if_neg hflag]

/-- R111: `vle_decode` reads the bytes that it counts. -/
theorem vleDecode_answersFrom {s : State} {base : Nat} {r : Reserved} {p : Word × Nat}
    (h : vleDecode s base r = .ok p) : AnswersFrom (vleDecode · base r) s base 12 p := by
  cases r with
  | r0 =>
    obtain ⟨⟨hlo, hhi⟩, hsame⟩ := lebDecode_answersFrom h
    exact ⟨⟨hlo, by omega⟩, hsame⟩
  | r1 => exact vleDecodeOne_answersFrom h
  | r4 => exact vleDecodeShared_answersFrom h
  | r5 => exact vleDecodeShared_answersFrom h
  | r6 => exact vleDecodeShared_answersFrom h

/-! `num_decode`. -/

theorem leadByte_of_numDecode_ok {m : Mode} {s : State} {t : Token} (h : numDecode m s = .ok t) : Spec.leadByte s := by
  have hin : 0 < s.ibufLen := Nat.pos_of_ne_zero fun hempty => by
    rw [numDecode_beyond m hempty] at h
    cases h
  refine ⟨hin, (byteClass_eq_numericLead_iff _).1 (by_contra fun hclass => ?_)⟩
  rw [numDecode_badTag m hin hclass] at h
  cases h

/-- R83 to R88: the magnitude starts at byte 0 or byte 1. -/
theorem layout_base_le {m : Mode} {b : Nat} {r : Reserved} {base dp : Nat} {neg : Bool}
    (h : Spec.layout m b = (r, base, neg, dp)) : base ≤ 1 := by
  unfold Spec.layout at h
  split at h
  case h_1 | h_2 =>
    cases h
    omega
  case h_3 | h_4 =>
    split at h <;> cases h <;> omega

/-- R166: `num_decode` reads the bytes that it counts, its lead byte and those of the magnitude. -/
theorem numDecode_ok {m : Mode} {s : State} {t : Token} (h : numDecode m s = .ok t) :
    t.len ≤ 13 ∧ ∀ s', SameInput s s' t.len → numDecode m s' = .ok t := by
  have hlead := leadByte_of_numDecode_ok h
  obtain ⟨⟨r, base, neg, dp⟩, hlayout⟩ : ∃ l, Spec.layout m (ibufByte s 0).toNat = l := ⟨_, rfl⟩
  have hbase := layout_base_le hlayout
  rw [numDecode_leadByte hlead hlayout] at h
  obtain ⟨p, hp, rfl⟩ := except_map_eq_ok.1 h
  obtain ⟨⟨hlo, hhi⟩, hsame⟩ := vleDecode_answersFrom hp
  refine ⟨Nat.add_le_add hhi hbase, fun s' hs => ?_⟩
  have hfirst : ibufByte s' 0 = ibufByte s 0 := hs.2 0 (Nat.add_pos_left hlo base)
  have hlead' : Spec.leadByte s' := ⟨(Nat.add_pos_left hlo base).trans_le hs.1, hfirst ▸ hlead.2⟩
  have hmagnitude : vleDecode s' base r = .ok p := hsame s' (hs.mono (Nat.add_comm base p.2).le)
  rw [numDecode_leadByte hlead' (hfirst ▸ hlayout), hmagnitude]
  rfl

/-! The commands. -/

theorem endingOf_map_eq_commit {α : Type} {f : α → List Byte × Results} {x : Except ErrCode α} {out : List Byte}
    {res : Results} : endingOf (x.map f) = .commit out res ↔ ∃ a, x = .ok a ∧ f a = (out, res) := by
  cases x <;> simp [Except.map, endingOf, Prod.ext_iff]

theorem toNat_ofNat_len {n : Nat} (h : n ≤ 13) : (BitVec.ofNat 64 n).toNat = n :=
  (BitVec.toNat_ofNat _ _).trans (Nat.mod_eq_of_lt (by omega))

theorem vleDecCommand_sameInput {r : Reserved} {s s' : State} {out : List Byte} {res : Results}
    (h : vleDecCommand r s = .commit out res) (hs : SameInput s s' res.len.toNat) :
    vleDecCommand r s' = .commit out res := by
  obtain ⟨p, hp, hres⟩ := endingOf_map_eq_commit.1 h
  cases hres
  obtain ⟨⟨hlo, hhi⟩, hsame⟩ := vleDecode_answersFrom hp
  rw [toNat_ofNat_len (hhi.trans (by omega))] at hs
  have hdec : vleDecode s' 0 r = .ok p := hsame s' (hs.mono (Nat.zero_add _).le)
  rw [vleDecCommand, hdec, decodedPrefix_congr (hs.2 0 hlo)]
  rfl

/-- R136: SPC.DEC commits on a first byte that can be read, and reports that one byte. -/
theorem spcDecCommand_commit {s : State} {out : List Byte} {res : Results}
    (h : spcDecCommand s = .commit out res) : 0 < s.ibufLen ∧ res.len = 1 := by
  have hin : 0 < s.ibufLen := Nat.pos_of_ne_zero fun hempty => by
    rw [spcDecCommand_beyond hempty] at h
    cases h
  refine ⟨hin, ?_⟩
  rw [spcDecCommand_inside hin] at h
  by_cases hclass : byteClass (ibufByte s 0) = .spaceRun
  · rw [spaceDecode_spaceRun hclass] at h
    cases h
    rfl
  · rw [spaceDecode_badTag hclass] at h
    cases h

theorem spcDecCommand_sameInput {s s' : State} {out : List Byte} {res : Results}
    (h : spcDecCommand s = .commit out res) (hs : SameInput s s' res.len.toNat) :
    spcDecCommand s' = .commit out res := by
  obtain ⟨hin, hlen⟩ := spcDecCommand_commit h
  rw [hlen] at hs
  obtain ⟨hread, hbytes⟩ := hs
  rw [spcDecCommand_inside hread, hbytes 0 Nat.one_pos, ← spcDecCommand_inside hin, h]

theorem numDecCommand_sameInput {m : Mode} {s s' : State} {out : List Byte} {res : Results}
    (h : numDecCommand m s = .commit out res) (hs : SameInput s s' res.len.toNat) :
    numDecCommand m s' = .commit out res := by
  obtain ⟨t, ht, hres⟩ := endingOf_map_eq_commit.1 h
  cases hres
  obtain ⟨hlen, hsame⟩ := numDecode_ok ht
  rw [toNat_ofNat_len hlen] at hs
  rw [numDecCommand, hsame s' hs]
  rfl

/-- R24: only a commit sets ACCEPT. -/
theorem exec_of_accept {i : Instr} {s t : State} (h : exec i s = .next t) (haccept : t.accept = true) :
    s.fault = false ∧ ∃ out res, bodyOf i s = .commit out res ∧ t = commit out res s := by
  rw [exec_eq_runCommand] at h
  rcases runCommand_cases h with ⟨-, rfl⟩ | ⟨hf, hcommit⟩ | ⟨-, e, -, rfl⟩ | ⟨-, -, rfl⟩
  · cases haccept
  · exact ⟨hf, hcommit⟩
  · cases haccept
  · cases haccept

/-- R110, R136, R165: a decode command ends the same on the same RES_LEN bytes. -/
theorem bodyOf_sameInput {i : Instr} {s s' : State} {out : List Byte} {res : Results}
    (hi : (∃ r, i = .vleDec r) ∨ i = .spcDec ∨ ∃ mode, i = .numDec mode) (h : bodyOf i s = .commit out res)
    (hs : SameInput s s' res.len.toNat) : bodyOf i s' = .commit out res := by
  rcases hi with ⟨r, rfl⟩ | rfl | ⟨mode, rfl⟩
  · rw [bodyOf_vleDec] at h ⊢
    exact vleDecCommand_sameInput h hs
  · exact spcDecCommand_sameInput h hs
  · rw [bodyOf_numDec] at h ⊢
    exact numDecCommand_sameInput h hs

/-- Settles O37: the command ends with the same commit, which neither reads nor writes IBUF and IBUF_LEN. -/
theorem bytesAfterTheTokenAreNotRead : Obligations.BytesAfterTheTokenAreNotRead := by
  intro i s t m len hi h haccept hlen hbytes
  obtain ⟨hf, out, res, hbody, rfl⟩ := exec_of_accept h haccept
  have hs : SameInput s { s with ibuf := m, ibufLen := len } res.len.toNat := ⟨hlen, hbytes⟩
  rw [exec_eq_runCommand, runCommand_ready _ { s with ibuf := m, ibufLen := len } hf, bodyOf_sameInput hi hbody hs]
  rfl

end Sys2Proof.Machine

/-! ### The space codec: the bytes of a run, SPC.ENC and the round trip through SPC.DEC -/

namespace Sys2Proof.Machine

/-! The bytes of a run (R131). -/

/-- R130: a tagged byte is 128 and its count. -/
theorem spaceByte_eq_byteOf {count : Nat} (h : count < 64) : spaceByte count = Spec.byteOf (128 + count) :=
  byteOf_or_byteOf (k := 7) (a := 1) (by omega)

/-- R131: `space_encode` in plain arithmetic. -/
theorem spaceEncode_eq_spaceBytes (n : Word) : spaceEncode n = Spec.spaceBytes n.toNat := by
  have hfull : spaceByte Config.spaceChunkMax = 0xBF := rfl
  have hrest : spaceByte (n.toNat % 63) = Spec.byteOf (128 + n.toNat % 63) := spaceByte_eq_byteOf (by omega)
  by_cases hzero : n.toNat = 0
  · simp [spaceEncode, Spec.spaceBytes, hzero]
  · simp only [spaceEncode, Spec.spaceBytes, if_neg hzero, hfull, hrest, ite_not]
    rfl

/-- R131: the literal of a single space, full chunks alone, or full chunks and a remainder. -/
theorem spaceBytes_cases (n : Nat) :
    (n = 1 ∧ Spec.spaceBytes n = [0x20]) ∨
    (n % 63 = 0 ∧ Spec.spaceBytes n = List.replicate (n / 63) 0xBF) ∨
    (n ≠ 1 ∧ n % 63 ≠ 0 ∧
      Spec.spaceBytes n = List.replicate (n / 63) 0xBF ++ [Spec.byteOf (128 + n % 63)]) := by
  by_cases hone : n = 1
  · exact .inl ⟨hone, if_pos hone⟩
  · by_cases hwhole : n % 63 = 0
    · exact .inr (.inl ⟨hwhole, by rw [Spec.spaceBytes, if_neg hone, if_pos hwhole, List.append_nil]⟩)
    · exact .inr (.inr ⟨hone, hwhole, by rw [Spec.spaceBytes, if_neg hone, if_neg hwhole]⟩)

/-! The round trip (R138): each byte of a run, taken by itself. -/

/-- R80: the host copies a literal byte. -/
theorem expandByte_literal (s : State) {b : Byte} (h : b.toNat < 0x80) : Spec.expandByte s b = [b] := if_pos h

/-- R136: SPC.DEC on a given space-run byte. -/
theorem exec_spcDec_of_byte {s : State} {b : Byte} (hf : s.fault = false) (hin : 0 < s.ibufLen)
    (hbyte : ibufByte s 0 = b) (hb : b.toNat / 64 = 2) : exec .spcDec s =
      .next (Spec.committed s (List.replicate (b.toNat % 64) 0x20) (b.toNat % 64) 1 0 false 0) := by
  subst hbyte
  exact spcDecCommits s hf hin hb

/-- R136: SPC.DEC gives the host as many spaces as a space-run byte counts. -/
theorem expandByte_spaceRun {s : State} {b : Byte} (hf : s.fault = false) (hb : b.toNat / 64 = 2) :
    Spec.expandByte s b = List.replicate (b.toNat % 64) 0x20 := by
  rw [Spec.expandByte, if_neg (by omega), exec_spcDec_of_byte (b := b) ?unfaulted ?inside ?loaded hb]
  case unfaulted => exact hf
  case inside => exact Nat.one_pos
  case loaded => exact (Memory.read_write [] 0x80 0x80 b).trans (if_pos rfl)
  rfl

/-- R136: a tagged byte of a known count. -/
theorem expandByte_byteOf {s : State} {count : Nat} (hf : s.fault = false) (h : count < 64) :
    Spec.expandByte s (Spec.byteOf (128 + count)) = List.replicate count 0x20 := by
  have hnat : (Spec.byteOf (128 + count)).toNat = 128 + count := toNat_byteOf (by omega)
  rw [expandByte_spaceRun hf (by omega), hnat]
  congr 1
  omega

/-- R131, R136: full chunks stand for 63 spaces each. -/
theorem flatMap_expandByte_fullChunks {s : State} (hf : s.fault = false) (k : Nat) :
    (List.replicate k (0xBF : Byte)).flatMap (Spec.expandByte s) = List.replicate (k * 63) 0x20 := by
  have hfull : Spec.expandByte s 0xBF = List.replicate 63 0x20 := expandByte_byteOf (count := 63) hf (by omega)
  rw [List.flatMap_replicate, hfull, List.flatten_replicate_replicate]

/-- Settles O43: the chunks' counts add up to the run's. -/
theorem spaceRoundTrip : Obligations.SpaceRoundTrip := by
  intro s n hf
  rw [spaceEncode_eq_spaceBytes]
  rcases spaceBytes_cases n.toNat with ⟨hone, hbytes⟩ | ⟨hwhole, hbytes⟩ | ⟨-, -, hbytes⟩
  · rw [hbytes, List.flatMap_singleton, expandByte_literal s (by decide), hone, List.replicate_one]
  · rw [hbytes, flatMap_expandByte_fullChunks hf]
    congr 1
    omega
  · rw [hbytes, List.flatMap_append, flatMap_expandByte_fullChunks hf, List.flatMap_singleton,
      expandByte_byteOf hf (by omega), List.replicate_append_replicate, Nat.div_add_mod']

/-! The length and the place of a count of 1. -/

/-- Settles O39: a chunk begun is a byte, and the literal is one. -/
theorem spaceEncodeLength : Obligations.SpaceEncodeLength := by
  intro n
  rw [spaceEncode_eq_spaceBytes]
  rcases spaceBytes_cases n.toNat with ⟨hone, hbytes⟩ | ⟨hwhole, hbytes⟩ | ⟨hone, hrest, hbytes⟩
  · rw [hbytes, if_neg (by omega), if_pos hone, List.length_singleton]
  · rw [hbytes, List.length_replicate]
    split_ifs <;> omega
  · rw [hbytes, if_neg (by omega), if_neg hone, List.length_append, List.length_replicate, List.length_singleton]
    omega

/-- R135: a tagged byte of count 1 is the remainder after full chunks, of which there is one at least. -/
theorem spaceBytes_of_mem_countOne {n : Nat} (h : 0x81#8 ∈ Spec.spaceBytes n) :
    64 ≤ n ∧ n % 63 = 1 ∧ Spec.spaceBytes n = List.replicate (n / 63) 0xBF ++ [0x81] := by
  have hfull : 0x81#8 ∉ List.replicate (n / 63) (0xBF : Byte) := fun hmem =>
    absurd (List.eq_of_mem_replicate hmem) (by decide)
  rcases spaceBytes_cases n with ⟨-, hbytes⟩ | ⟨-, hbytes⟩ | ⟨hone, hrest, hbytes⟩
  · rw [hbytes] at h
    exact absurd (List.mem_singleton.1 h) (by decide)
  · rw [hbytes] at h
    exact absurd h hfull
  · rw [hbytes, List.mem_append, or_iff_right hfull, List.mem_singleton] at h
    have hcount : 129 = 128 + n % 63 := (congrArg BitVec.toNat h).trans (toNat_byteOf (by omega))
    exact ⟨by omega, by omega, hbytes.trans (by rw [← h]; rfl)⟩

/-- Settles O40: the one tagged byte of count 1 stands after full chunks, which are other bytes. -/
theorem singleSpaceIsLiteral : Obligations.SingleSpaceIsLiteral := by
  refine ⟨rfl, fun n h => ?_⟩
  rw [spaceEncode_eq_spaceBytes] at h ⊢
  obtain ⟨hlong, hrest, hbytes⟩ := spaceBytes_of_mem_countOne h
  have hfull : (List.replicate (n.toNat / 63) (0xBF : Byte)).count 0x81 = 0 := by
    rw [List.count_replicate, if_neg (by decide)]
  refine ⟨hlong, hrest, ?_, ?_⟩
  · rw [hbytes, List.getLast?_concat]
  · rw [hbytes, List.count_append, hfull, List.count_singleton_self]

/-- Settles O38: no count is refused, and the emitted bytes are the run's in plain arithmetic. -/
theorem spcEncCommits : Obligations.SpcEncCommits := by
  intro s hf
  refine exec_of_emit hf ?_
  rw [bodyOf_spcEnc, spcEncCommand, spaceEncode_eq_spaceBytes]

end Sys2Proof.Machine

/-! ### NUM.ENC: its checks, where it declines, and what it emits -/

namespace Sys2Proof.Machine

/-- R153: a count above 15 is refused before the other operands are looked at. -/
theorem numEncCommand_dpRange {s : State} (h : 15 < s.argDp.toNat) (m : Mode) : numEncCommand m s = .raise .dpRange :=
  if_pos h

/-- R153: operands that the Mode cannot represent are refused once the count is in range. -/
theorem numEncCommand_operand {m : Mode} {s : State} (hdp : s.argDp.toNat ≤ 15)
    (h : ¬ Spec.representable m s.argNeg s.argDp.toNat) : numEncCommand m s = .raise .operand := by
  rw [← unrepresentable_eq_false_iff, Bool.not_eq_false] at h
  rw [numEncCommand, if_neg (Nat.not_lt.2 hdp), if_pos h]

/-- R26, R202, R203: a raise of DPRANGE sets FAULT. -/
theorem raise_dpRange (s : State) : raise .dpRange s = { s with accept := false, err := 6, fault := true } := by
  simp [raise, flagsRaised, ErrCode.code]

/-- Settles O46: each check raises its error, and DPRANGE alone sets FAULT. -/
theorem numEncChecksOperands : Obligations.NumEncChecksOperands := by
  refine fun m s hf => ⟨fun hdp => ?_, fun hdp hrep => ?_⟩
  · rw [exec_numEnc, runCommand_ready _ _ hf, numEncCommand_dpRange hdp, finish, raise_dpRange]
  · refine exec_of_raise hf (c := .operand) (by decide) ?_
    rw [bodyOf_numEnc, numEncCommand_operand hdp hrep]

/-- Settles O45: the command's ending is to decline, which writes STATUS alone. -/
theorem numEncDeclines : Obligations.NumEncDeclines := by
  intro m s hf hdp hrep hdec
  rw [exec_numEnc, runCommand_ready _ _ hf, (numEncCommand_eq_decline_iff m s).2 ⟨hdp, hrep, hdec⟩]
  rfl

/-- R153, R154: NUM.ENC commits the token of operands that pass its checks. -/
theorem numEncCommand_commit {m : Mode} {s : State} {out : List Byte} {res : Results}
    (h : numEncCommand m s = .commit out res) : s.argDp.toNat ≤ 15 ∧
      Spec.representable m s.argNeg s.argDp.toNat ∧ out = numEncode m s.argValue s.argNeg s.argDp := by
  have hdp : s.argDp.toNat ≤ 15 := Nat.not_lt.1 fun hdp => by
    rw [numEncCommand_dpRange hdp] at h
    cases h
  have hrep : Spec.representable m s.argNeg s.argDp.toNat := by_contra fun hrep => by
    rw [numEncCommand_operand hdp hrep] at h
    cases h
  have hdec : ¬ Spec.declined m s.argValue.toNat s.argNeg s.argDp.toNat := fun hdec => by
    rw [(numEncCommand_eq_decline_iff m s).2 ⟨hdp, hrep, hdec⟩] at h
    cases h
  rw [numEncCommand_eq_emit hdp hrep hdec] at h
  cases h
  exact ⟨hdp, hrep, (numEncode_eq_tokenBytes hdp).symm⟩

/-- R24: a command that set ACCEPT committed what it added to OUT. -/
theorem bodyOf_of_accept {i : Instr} {s t : State} {emitted : List Byte} (h : exec i s = .next t)
    (haccept : t.accept = true) (hout : t.out = s.out ++ emitted) :
    ∃ res, bodyOf i s = .commit emitted res ∧ t = commit emitted res s := by
  obtain ⟨-, out, res, hbody, rfl⟩ := exec_of_accept h haccept
  obtain rfl : out = emitted := List.append_cancel_left hout
  exact ⟨res, hbody, rfl⟩

/-! The length of a token (R172). -/

theorem length_numEncode_le (m : Mode) (v : Word) (neg : Bool) (dp : Byte) :
    (numEncode m v neg dp).length ≤ if m = .sd ∧ dp ≠ 0 then 11 else 10 := by
  obtain ⟨hlen, -, -⟩ := vleLengthBounds
  cases m with
  | ui => exact hlen v .r6 _
  | si => exact hlen v .r5 _
  | ud =>
    by_cases hdp : dp = 0
    · rw [numEncode, if_pos hdp]
      exact hlen v .r4 _
    · rw [numEncode, if_neg hdp]
      exact hlen v .r1 _
  | sd =>
    by_cases hdp : dp = 0
    · rw [numEncode, if_pos hdp, if_neg fun h => h.2 hdp]
      exact hlen v .r4 _
    · rw [numEncode, if_neg hdp, if_pos ⟨rfl, hdp⟩]
      exact Nat.succ_le_succ (hlen v .r0 _)

theorem length_numEncode_le_eleven (m : Mode) (v : Word) (neg : Bool) (dp : Byte) :
    (numEncode m v neg dp).length ≤ 11 :=
  (length_numEncode_le m v neg dp).trans (by split <;> omega)

/-- R172: the longest token, a lead byte of its own before the longest chunk sequence. -/
theorem length_numEncode_sd_max (neg : Bool) {dp : Byte} (hdp : dp ≠ 0) :
    (numEncode .sd 0xFFFFFFFFFFFFFFFF neg dp).length = 11 := by
  obtain ⟨-, hmax, -⟩ := vleLengthBounds
  rw [numEncode, if_neg hdp, List.length_cons, hmax]

/-- Settles O52: the bounds on the VLE, with the lead byte that SD puts before the magnitude; 11 bytes are IBUF's least
size. -/
theorem tokenIsShort : Obligations.TokenIsShort := by
  refine ⟨length_numEncode_le, fun neg dp hdp => length_numEncode_sd_max neg hdp, by decide, fun s hs => ?_⟩
  obtain ⟨hsizes, -, -⟩ := (State.good_iff s).1 hs
  obtain ⟨hmin, -, -⟩ := (State.sizesLegal_iff s).1 hsizes
  exact hmin

end Sys2Proof.Machine

/-! ### The round trip of a numeric payload: an emitted token is a whole token of its payload -/

namespace Sys2Proof.Machine

theorem inputAt_zero_of_getElem {s : State} {bytes : List Byte} (hlen : bytes.length ≤ s.ibufLen)
    (h : ∀ i (hi : i < bytes.length), ibufByte s i = bytes[i]) : InputAt s 0 bytes :=
  inputAt_of_getElem (by rwa [Nat.zero_add]) fun i hi => by rw [Nat.zero_add, h i hi]

/-- The input starts with a whole token of `len` bytes that holds a payload (R150, R166). -/
def TokenAt (s : State) (m : Mode) (v : Nat) (neg : Bool) (dp len : Nat) : Prop :=
  Spec.leadByte s ∧ ∃ r base n, Spec.layout m (ibufByte s 0).toNat = (r, base, neg, dp) ∧
    Spec.VleRun s base r n ∧ Spec.vleValue s base r n = v ∧ base + n = len

/-- R165: NUM.DEC commits the payload of a whole token. -/
theorem exec_numDec_of_tokenAt {m : Mode} {s : State} {v dp len : Nat} {neg : Bool} (hf : s.fault = false)
    (h : TokenAt s m v neg dp len) :
    exec (.numDec m) s = .next (Spec.committed s (Spec.text v neg dp) v len 0 neg dp) := by
  obtain ⟨hlead, r, base, n, hlayout, hrun, rfl, rfl⟩ := h
  exact numDecCommits m s r base neg dp n hf hlead hlayout hrun

/-- R100, R151: a lead byte that shares its low r bits with the magnitude is read as the metadata `p` says, whatever
those bits are. -/
theorem tokenAt_of_sharedLead {m : Mode} {s : State} {r : Reserved} {v p dp : Nat} {neg : Bool} (hr : r ≠ .r0)
    (hv : v < 2 ^ 64) (hp : p < 256) (hclear : 2 ^ r.count ∣ p)
    (hlead : ∀ n < 2 ^ r.count, (p + n) / 64 = 3 ∧ Spec.layout m (p + n) = (r, 0, neg, dp))
    (h : InputAt s 0 (Spec.vleBytes v r p)) : TokenAt s m v neg dp (Spec.vleBytes v r p).length := by
  have hkeep : Spec.keep r.count p = p := Nat.div_mul_cancel hclear
  obtain ⟨n, rest, hn, hcons⟩ := vleBytes_eq_cons hr v p
  have hinput := h
  rw [hcons, hkeep] at hinput
  obtain ⟨⟨hin, hbyte⟩, -⟩ := hinput
  obtain ⟨hclass, hlayout⟩ := hlead n hn
  have hfirst : (ibufByte s 0).toNat = p + n := by rw [hbyte, toNat_byteOf (by omega)]
  rw [← toNat_byteOf hp] at h ⊢
  obtain ⟨hrun, hval⟩ := vleRun_of_inputAt hv h
  exact ⟨⟨hin, hfirst ▸ hclass⟩, r, 0, _, hfirst ▸ hlayout, hrun, hval, Nat.zero_add _⟩

theorem testBit_of_div_mod {x i : Nat} {b : Bool} (h : x / 2 ^ i % 2 = b.toNat) : x.testBit i = b := by
  rw [Nat.testBit_eq_decide_div_mod_eq, h]
  cases b <;> rfl

/-- R84 to R88: bit 5 of a lead byte, the sign or the mark of decimal places. -/
theorem testBit_five_lead (b : Bool) {n : Nat} (hn : n < 32) : (0xC0 + 2 ^ 5 * b.toNat + n).testBit 5 = b :=
  have hb := b.toNat_le
  testBit_of_div_mod (by omega)

/-- R87, R88: bit 4 of an SD lead byte, the mark of decimal places. -/
theorem testBit_four_lead (neg b : Bool) {n : Nat} (hn : n < 16) :
    (0xC0 + 2 ^ 5 * neg.toNat + 2 ^ 4 * b.toNat + n).testBit 4 = b :=
  have hb := b.toNat_le
  testBit_of_div_mod (by omega)

theorem two_pow_dvd_signedTag {r : Nat} (hr : r ≤ 5) (neg : Bool) : 2 ^ r ∣ 0xC0 + 2 ^ 5 * neg.toNat :=
  (pow_dvd_pow 2 hr).trans ⟨6 + neg.toNat, by ring⟩

theorem tokenAt_ui {s : State} {v : Nat} (hv : v < 2 ^ 64) (h : InputAt s 0 (Spec.tokenBytes .ui v false 0)) :
    TokenAt s .ui v false 0 (Spec.tokenBytes .ui v false 0).length :=
  tokenAt_of_sharedLead (r := .r6) (by decide) hv (by omega) (by decide)
    (fun n (hn : n < 64) => ⟨by omega, rfl⟩) h

theorem tokenAt_si {s : State} {v : Nat} {neg : Bool} (hv : v < 2 ^ 64)
    (h : InputAt s 0 (Spec.tokenBytes .si v neg 0)) : TokenAt s .si v neg 0 (Spec.tokenBytes .si v neg 0).length := by
  have hneg := neg.toNat_le
  refine tokenAt_of_sharedLead (r := .r5) (by decide) hv (by omega) (two_pow_dvd_signedTag le_rfl neg)
    (fun n (hn : n < 32) => ⟨by omega, ?_⟩) h
  rw [Spec.layout, testBit_five_lead neg hn]

theorem tokenAt_ud {s : State} {v dp : Nat} (hv : v < 2 ^ 64) (hdp : dp ≤ 15)
    (h : InputAt s 0 (Spec.tokenBytes .ud v false dp)) :
    TokenAt s .ud v false dp (Spec.tokenBytes .ud v false dp).length := by
  by_cases hzero : dp = 0
  · subst hzero
    refine tokenAt_of_sharedLead (r := .r4) (by decide) hv (by omega) (by decide)
      (fun n (hn : n < 16) => ⟨by omega, ?_⟩) h
    have hmark : (0xC0 + n).testBit 5 = false := testBit_five_lead false (by omega)
    rw [Spec.layout, hmark, if_neg Bool.false_ne_true]
  · rw [Spec.tokenBytes, if_neg hzero] at h ⊢
    refine tokenAt_of_sharedLead (r := .r1) (by decide) hv (by omega) (Dvd.intro (0x70 + dp) (Nat.mul_add 2 0x70 dp))
      (fun n (hn : n < 2) => ⟨by omega, ?_⟩) h
    have hmark : (0xC0 + 2 ^ 5 + 2 * dp + n).testBit 5 = true := by
      rw [Nat.add_assoc]
      exact testBit_five_lead true (by omega)
    have hplaces : (0xC0 + 2 ^ 5 + 2 * dp + n) / 2 % 16 = dp := by omega
    rw [Spec.layout, if_pos hmark, hplaces]

theorem tokenAt_sd {s : State} {v dp : Nat} {neg : Bool} (hv : v < 2 ^ 64) (hdp : dp ≤ 15)
    (h : InputAt s 0 (Spec.tokenBytes .sd v neg dp)) :
    TokenAt s .sd v neg dp (Spec.tokenBytes .sd v neg dp).length := by
  have hneg := neg.toNat_le
  by_cases hzero : dp = 0
  · subst hzero
    refine tokenAt_of_sharedLead (r := .r4) (by decide) hv (by omega) (two_pow_dvd_signedTag (by decide) neg)
      (fun n (hn : n < 16) => ⟨by omega, ?_⟩) h
    have hmark : (0xC0 + 2 ^ 5 * neg.toNat + n).testBit 4 = false := testBit_four_lead neg false hn
    rw [Spec.layout, hmark, if_neg Bool.false_ne_true, testBit_five_lead neg (by omega)]
  · rw [Spec.tokenBytes, if_neg hzero] at h ⊢
    obtain ⟨⟨hin, hbyte⟩, hrest⟩ := h
    have hfirst : (ibufByte s 0).toNat = 0xC0 + 2 ^ 5 * neg.toNat + 2 ^ 4 + dp := by
      rw [hbyte, toNat_byteOf (by omega)]
    have hmark : (0xC0 + 2 ^ 5 * neg.toNat + 2 ^ 4 + dp).testBit 4 = true := testBit_four_lead neg true (by omega)
    have hsign : (0xC0 + 2 ^ 5 * neg.toNat + 2 ^ 4 + dp).testBit 5 = neg := by
      rw [Nat.add_assoc]
      exact testBit_five_lead neg (by omega)
    have hplaces : (0xC0 + 2 ^ 5 * neg.toNat + 2 ^ 4 + dp) % 16 = dp := by omega
    obtain ⟨hrun, hval⟩ := vleRun_of_inputAt (r := .r0) (p := 0) hv hrest
    refine ⟨⟨hin, by omega⟩, .r0, 1, _, ?_, hrun, hval, Nat.add_comm 1 _⟩
    rw [hfirst, Spec.layout, if_pos hmark, hsign, hplaces]

/-- R83 to R88, R151, R166: the bytes of a payload's token are a whole token of it. -/
theorem tokenAt_of_inputAt {m : Mode} {s : State} {v dp : Nat} {neg : Bool} (hv : v < 2 ^ 64) (hdp : dp ≤ 15)
    (hrep : Spec.representable m neg dp) (h : InputAt s 0 (Spec.tokenBytes m v neg dp)) :
    TokenAt s m v neg dp (Spec.tokenBytes m v neg dp).length := by
  cases m with
  | ui =>
    obtain ⟨rfl, rfl⟩ := hrep
    exact tokenAt_ui hv h
  | si =>
    obtain rfl : dp = 0 := hrep
    exact tokenAt_si hv h
  | ud =>
    obtain rfl : neg = false := hrep
    exact tokenAt_ud hv hdp h
  | sd => exact tokenAt_sd hv hdp h

/-- R169: NUM.DEC of the same Mode commits the payload that NUM.ENC committed as `token`. -/
theorem exec_numDec_of_encoded {m : Mode} {s t u : State} {token : List Byte} (h : exec (.numEnc m) s = .next t)
    (haccept : t.accept = true) (hout : t.out = s.out ++ token) (hf : u.fault = false) (hin : InputAt u 0 token) :
    exec (.numDec m) u = .next (Spec.committed u (Spec.text s.argValue.toNat s.argNeg s.argDp.toNat)
      s.argValue.toNat token.length 0 s.argNeg s.argDp.toNat) := by
  obtain ⟨res, hbody, -⟩ := bodyOf_of_accept h haccept hout
  rw [bodyOf_numEnc] at hbody
  obtain ⟨hdp, hrep, rfl⟩ := numEncCommand_commit hbody
  rw [numEncode_eq_tokenBytes hdp] at hin ⊢
  exact exec_numDec_of_tokenAt hf (tokenAt_of_inputAt s.argValue.isLt hdp hrep hin)

/-- R153, R172: what NUM.ENC commits fits the result registers of NUM.DEC. -/
theorem encoded_bounds {m : Mode} {s t : State} {token : List Byte} (h : exec (.numEnc m) s = .next t)
    (haccept : t.accept = true) (hout : t.out = s.out ++ token) : s.argDp.toNat ≤ 15 ∧ token.length ≤ 11 := by
  obtain ⟨res, hbody, -⟩ := bodyOf_of_accept h haccept hout
  rw [bodyOf_numEnc] at hbody
  obtain ⟨hdp, -, rfl⟩ := numEncCommand_commit hbody
  exact ⟨hdp, length_numEncode_le_eleven _ _ _ _⟩

/-- Settles O49: the emitted token is a whole token of the payload, which NUM.DEC commits wherever it stands. -/
theorem numPayloadRoundTrip : Obligations.NumPayloadRoundTrip := by
  intro m s t u token h haccept hout hf hlen hbytes
  obtain ⟨hdp, htoken⟩ := encoded_bounds h haccept hout
  refine ⟨_, exec_numDec_of_encoded h haccept hout hf (inputAt_zero_of_getElem hlen hbytes), rfl, ?_, rfl, ?_, ?_⟩
  · exact BitVec.ofNat_toNat .. |>.trans (BitVec.setWidth_eq _)
  · exact (BitVec.toNat_ofNat _ 4).trans (Nat.mod_eq_of_lt (by omega))
  · exact (BitVec.toNat_ofNat _ 64).trans (Nat.mod_eq_of_lt (by omega))

end Sys2Proof.Machine

/-! ### The text of a number: its digits, its characters and its length -/

namespace Sys2Proof.Machine

/-- R167: `render` is the text of what its operands say. -/
theorem render_eq_text_toNat (v : Word) (neg : Bool) (dp : BitVec 4) :
    render v neg dp = Spec.text v.toNat neg dp.toNat := by
  have h := render_eq_text neg v.isLt dp.isLt
  rwa [BitVec.ofNat_toNat, BitVec.setWidth_eq, BitVec.ofNat_toNat, BitVec.setWidth_eq] at h

/-- R167: the text of digits whose last `fraction.length` are decimal places. -/
theorem text_of_paddedDigits {v : Nat} {whole fraction : List Nat}
    (h : Spec.paddedDigits v fraction.length = whole ++ fraction) (neg : Bool) :
    Spec.text v neg fraction.length = Spec.numberText neg whole fraction := by
  have hlen : (whole ++ fraction).length - fraction.length = whole.length := by simp
  simp only [Spec.text, Spec.numberText, h, hlen, List.take_left', List.drop_left', List.length_eq_zero_iff]

/-! The digits of a text's number (R170). -/

theorem decimalValue_concat (ds : List Nat) (d : Nat) :
    Spec.decimalValue (ds ++ [d]) = 10 * Spec.decimalValue ds + d := List.foldl_concat ..

theorem decimalValue_eq_ofDigits (ds : List Nat) : Spec.decimalValue ds = Nat.ofDigits 10 ds.reverse := by
  rw [Nat.ofDigits_eq_foldr, List.foldr_reverse, Spec.decimalValue]
  simp [Nat.add_comm]

/-- R170: digits that do not begin with 0 are the digits of the number they read as. -/
theorem decimalDigits_decimalValue {ds : List Nat} (hdigits : ∀ d ∈ ds, d < 10) (hne : ds ≠ [])
    (hhead : ds.head? ≠ some 0) : Spec.decimalDigits (Spec.decimalValue ds) = ds := by
  have hrev : Nat.digits 10 (Spec.decimalValue ds) = ds.reverse := by
    rw [decimalValue_eq_ofDigits]
    refine Nat.digits_ofDigits 10 (by omega) _ (fun d hd => hdigits d (List.mem_reverse.1 hd)) fun _ hlast => hhead ?_
    rw [← List.getLast?_reverse, List.getLast?_eq_getLast_of_ne_nil (by simpa using hne), hlast]
  have hpos : Spec.decimalValue ds ≠ 0 := fun hzero => by
    rw [hzero, Nat.digits_zero] at hrev
    exact hne (List.reverse_eq_nil_iff.1 hrev.symm)
  rw [Spec.decimalDigits, if_neg hpos, hrev, List.reverse_reverse]

/-- R167: one more digit at the end is one more decimal place, whatever zeros the padding puts in front. -/
theorem paddedDigits_concat {d : Nat} (n dp : Nat) (hd : d < 10) :
    Spec.paddedDigits (10 * n + d) (dp + 1) = Spec.paddedDigits n dp ++ [d] := by
  rcases Nat.eq_zero_or_pos n with rfl | hpos
  · have hzeros : List.replicate (dp + 1) 0 = List.replicate dp 0 ++ [0] := List.replicate_succ'
    rw [Nat.mul_zero, Nat.zero_add]
    simp only [Spec.paddedDigits, decimalDigits_of_lt hd, decimalDigits_of_lt (n := 0) (by omega),
      List.length_singleton, Nat.add_sub_cancel, hzeros]
  · have hdiv : (10 * n + d) / 10 = n := by omega
    have hmod : (10 * n + d) % 10 = d := by omega
    rw [Spec.paddedDigits, Spec.paddedDigits, decimalDigits_of_ge (by omega), hdiv, hmod, List.length_append,
      List.length_singleton, Nat.add_sub_add_right, List.append_assoc]

theorem paddedDigits_zero (v : Nat) : Spec.paddedDigits v 0 = Spec.decimalDigits v :=
  paddedDigits_of_lt (length_decimalDigits_pos v)

/-- R170: the decimal places' digits stand behind those of the whole number, by induction from the last one. -/
theorem paddedDigits_decimalValue (whole : List Nat) {fraction : List Nat} (hdigits : ∀ d ∈ fraction, d < 10) :
    Spec.paddedDigits (Spec.decimalValue (whole ++ fraction)) fraction.length =
      Spec.decimalDigits (Spec.decimalValue whole) ++ fraction := by
  induction fraction using List.reverseRecOn with
  | nil => rw [List.append_nil, List.append_nil, List.length_nil, paddedDigits_zero]
  | append_singleton fraction d ih =>
    rw [List.forall_mem_append, List.forall_mem_singleton] at hdigits
    obtain ⟨hfraction, hd⟩ := hdigits
    rw [← List.append_assoc, decimalValue_concat, List.length_append, List.length_singleton,
      paddedDigits_concat _ _ hd, ih hfraction, List.append_assoc]

/-- R170: a text of the form `-? I (. F)?` is the text of its own payload. -/
theorem text_decimalValue {whole fraction : List Nat} (hdigits : ∀ d ∈ whole ++ fraction, d < 10)
    (hform : (whole = [0] ∧ fraction ≠ []) ∨ (whole ≠ [] ∧ whole.head? ≠ some 0)) (neg : Bool) :
    Spec.text (Spec.decimalValue (whole ++ fraction)) neg fraction.length = Spec.numberText neg whole fraction := by
  rw [List.forall_mem_append] at hdigits
  obtain ⟨hwhole, hfraction⟩ := hdigits
  have hself : Spec.decimalDigits (Spec.decimalValue whole) = whole := by
    rcases hform with ⟨rfl, -⟩ | ⟨hne, hhead⟩
    · rfl
    · exact decimalDigits_decimalValue hwhole hne hhead
  exact text_of_paddedDigits (by rw [paddedDigits_decimalValue whole hfraction, hself]) neg

/-- Settles O50: the text is that of its payload, and NUM.DEC emits the text of the payload it gives back. -/
theorem textRoundTrip : Obligations.TextRoundTrip := by
  intro neg whole fraction hdigits hform hlen hvalue
  have htext := text_decimalValue hdigits hform neg
  refine ⟨(render_eq_text neg hvalue (by omega)).trans htext, ?_⟩
  intro m s t u token hv hneg hdp h haccept hout hf hfit hbytes
  refine ⟨_, exec_numDec_of_encoded h haccept hout hf (inputAt_zero_of_getElem hfit hbytes), rfl, ?_⟩
  rw [hv, hneg, hdp, htext]
  rfl

/-! The characters of a text (R168). -/

theorem mem_decimalDigits_lt {v d : Nat} (h : d ∈ Spec.decimalDigits v) : d < 10 := by
  unfold Spec.decimalDigits at h
  split at h
  next =>
    rw [List.mem_singleton] at h
    omega
  next => exact Nat.digits_lt_base (by omega) (List.mem_reverse.1 h)

theorem mem_paddedDigits_lt {v dp d : Nat} (h : d ∈ Spec.paddedDigits v dp) : d < 10 := by
  rcases List.mem_append.1 h with hzero | hdigit
  · rw [List.eq_of_mem_replicate hzero]
    omega
  · exact mem_decimalDigits_lt hdigit

theorem mem_ascii_ge {ds : List Nat} (hdigits : ∀ d ∈ ds, d < 10) {b : Byte} (h : b ∈ Spec.ascii ds) :
    0x30 ≤ b.toNat := by
  obtain ⟨d, hd, rfl⟩ := List.mem_map.1 h
  have := hdigits d hd
  rw [toNat_byteOf (by omega)]
  omega

/-- R167: a text holds '-' only for its sign and '.' only before decimal places; the rest are digits. -/
theorem mem_text {v dp : Nat} {neg : Bool} {b : Byte} (h : b ∈ Spec.text v neg dp) :
    (b = 0x2D ∧ neg = true) ∨ (b = 0x2E ∧ dp ≠ 0) ∨ 0x30 ≤ b.toNat := by
  simp only [Spec.text, List.mem_append] at h
  rcases h with (hsign | hwhole) | hpoint
  · split at hsign
    next hneg => exact .inl ⟨List.mem_singleton.1 hsign, hneg⟩
    next => cases hsign
  · exact .inr (.inr (mem_ascii_ge (fun d hd => mem_paddedDigits_lt (List.mem_of_mem_take hd)) hwhole))
  · split at hpoint
    next => cases hpoint
    next hdp =>
      rcases List.mem_cons.1 hpoint with rfl | hfraction
      · exact .inr (.inl ⟨rfl, hdp⟩)
      · exact .inr (.inr (mem_ascii_ge (fun d hd => mem_paddedDigits_lt (List.mem_of_mem_drop hd)) hfraction))

theorem minus_not_mem_text (v dp : Nat) : 0x2D#8 ∉ Spec.text v false dp := fun h => by
  simpa using mem_text h

theorem point_not_mem_text (v : Nat) (neg : Bool) : 0x2E#8 ∉ Spec.text v neg 0 := fun h => by
  simpa using mem_text h

/-- R83, R85, R86: UI and UD tokens have no sign. -/
theorem layout_neg_eq_false {m : Mode} {b : Nat} {r : Reserved} {base dp : Nat} {neg : Bool} (hm : m = .ui ∨ m = .ud)
    (h : Spec.layout m b = (r, base, neg, dp)) : neg = false := by
  rcases hm with rfl | rfl
  · cases h
    rfl
  · rw [Spec.layout] at h
    split at h <;> cases h <;> rfl

/-- R83, R84: UI and SI tokens have no decimal places. -/
theorem layout_places_eq_zero {m : Mode} {b : Nat} {r : Reserved} {base dp : Nat} {neg : Bool}
    (hm : m = .ui ∨ m = .si) (h : Spec.layout m b = (r, base, neg, dp)) : dp = 0 := by
  rcases hm with rfl | rfl <;> cases h <;> rfl

/-- R165, R166: what NUM.DEC commits, with the sign and the decimal places that its lead byte says. -/
theorem numDecCommand_commit {m : Mode} {s : State} {out : List Byte} {res : Results}
    (h : numDecCommand m s = .commit out res) : ∃ v r base neg dp,
      Spec.layout m (ibufByte s 0).toNat = (r, base, neg, dp) ∧ out = Spec.text v neg dp ∧
        res.neg = neg ∧ res.dp = BitVec.ofNat 4 dp := by
  obtain ⟨token, htoken, hres⟩ := endingOf_map_eq_commit.1 h
  obtain ⟨⟨r, base, neg, dp⟩, hlayout⟩ : ∃ l, Spec.layout m (ibufByte s 0).toNat = l := ⟨_, rfl⟩
  rw [numDecode_leadByte (leadByte_of_numDecode_ok htoken) hlayout] at htoken
  obtain ⟨p, -, rfl⟩ := except_map_eq_ok.1 htoken
  cases hres
  have hplaces : (BitVec.ofNat 4 dp).toNat = dp :=
    (BitVec.toNat_ofNat _ _).trans (Nat.mod_eq_of_lt (layout_places_lt hlayout))
  exact ⟨p.1.toNat, r, base, neg, dp, hlayout, by rw [render_eq_text_toNat, hplaces], rfl, rfl⟩

/-- Settles O53: the lead byte's layout has no sign or no decimal places in the Mode, and the text shows only those. -/
theorem signAndPointFollowTheMode : Obligations.SignAndPointFollowTheMode := by
  intro m s t emitted h haccept hout
  obtain ⟨res, hbody, rfl⟩ := bodyOf_of_accept h haccept hout
  rw [bodyOf_numDec] at hbody
  obtain ⟨v, r, base, neg, dp, hlayout, rfl, hneg, hplaces⟩ := numDecCommand_commit hbody
  refine ⟨fun hm => ?_, fun hm => ?_⟩
  · obtain rfl : neg = false := layout_neg_eq_false hm hlayout
    exact ⟨minus_not_mem_text v dp, hneg⟩
  · obtain rfl : dp = 0 := layout_places_eq_zero hm hlayout
    exact ⟨point_not_mem_text v neg, hplaces⟩

/-! The length of a text (R171). -/

theorem length_decimalDigits_le_iff {v k : Nat} (hk : 0 < k) :
    (Spec.decimalDigits v).length ≤ k ↔ v < 10 ^ k := by
  rcases Nat.eq_zero_or_pos v with rfl | hpos
  · exact iff_of_true hk (Nat.pow_pos (by omega))
  · rw [Spec.decimalDigits, if_neg hpos.ne', List.length_reverse, Nat.digits_length_le_iff (by omega)]

theorem length_paddedDigits (v dp : Nat) :
    (Spec.paddedDigits v dp).length = max (Spec.decimalDigits v).length (dp + 1) := by
  rw [Spec.paddedDigits, List.length_append, List.length_replicate]
  omega

/-- R167: a sign, the padded digits and a point. -/
theorem length_text (v : Nat) (neg : Bool) (dp : Nat) : (Spec.text v neg dp).length =
    neg.toNat + max (Spec.decimalDigits v).length (dp + 1) + if dp = 0 then 0 else 1 := by
  have hpadded := length_paddedDigits v dp
  have hsign : (if neg then [0x2D] else ([] : List Byte)).length = neg.toNat := by cases neg <;> rfl
  simp only [Spec.text, Spec.ascii, List.length_append, hsign, List.length_map, List.length_take]
  split
  next hzero =>
    rw [List.length_nil]
    omega
  next =>
    rw [List.length_cons, List.length_map, List.length_drop]
    omega

/-- Settles O51: a 64-bit number has at most 20 digits, and exactly 20 from 10^19 on. -/
theorem textIsShort : Obligations.TextIsShort := by
  intro v neg dp
  have hmax : (Spec.decimalDigits v.toNat).length ≤ 20 := (length_decimalDigits_le_iff (by omega)).2 (by omega)
  have htwenty : (Spec.decimalDigits v.toNat).length ≤ 19 ↔ v.toNat < 10 ^ 19 :=
    length_decimalDigits_le_iff (by omega)
  have hplaces : dp.toNat < 16 := dp.isLt
  have hsign := neg.toNat_le
  have hneg : neg = true ↔ neg.toNat = 1 := by cases neg <;> decide
  rw [render_eq_text_toNat, length_text, hneg]
  split <;> omega

end Sys2Proof.Machine

/-! ### A command that fails, and what a faulted unit refuses and still serves -/

namespace Sys2Proof.Machine

/-! A command that fails. -/

/-- R155, R204: an ending that does not accept writes nothing but STATUS. -/
theorem finish_of_not_accept {e : Ending} {s : State} (h : (finish e s).accept = false) :
    finish e s = { s with accept := false, err := (finish e s).err, fault := (finish e s).fault } := by
  cases e with
  | commit p r => simp [finish] at h
  | raise c => rfl
  | decline => rfl

/-- Settles O12: a write to CMD stores the word and ends in one of a command's three ways, and only a commit writes more
than STATUS. -/
theorem failedCommandChangesOnlyStatus : Obligations.FailedCommandChangesOnlyStatus := by
  intro s t w rest hq h haccept
  obtain ⟨e, -, hend⟩ := runWord_eq_finish w { s with hostQueue := rest }
  cases hend.symm.trans ((step_write_cmd hq).symm.trans h)
  exact finish_of_not_accept haccept

/-! What a faulted unit refuses and still serves. -/

/-- R23, R26: of the values that a host reads, only STATUS shows FAULT. -/
theorem locationWord_setFault {l : Location} (hl : l ≠ .reg .status) (b : Bool) (s : State) :
    locationWord l { s with fault := b } = locationWord l s := by
  cases l with
  | reg r =>
    cases r with
    | status => exact absurd rfl hl
    | _ => rfl
  | ibuf a => rfl

theorem readEffect_setFault (l : Location) (b : Bool) (s : State) :
    readEffect l { s with fault := b } = { readEffect l s with fault := b } := by
  cases l with
  | reg r => simp only [readEffect_reg]
  | ibuf a => rfl

theorem writeReg_setFault (r : Reg) (w : Word) (b : Bool) (s : State) :
    writeReg r w { s with fault := b } = { writeReg r w s with fault := b } := by
  cases r <;> rfl

/-- A write that runs no command is done alike whatever FAULT is. -/
theorem writeLocation_setFault {l : Location} {v : Word} {s t : State} (hl : l ≠ .reg .cmd) (b : Bool)
    (h : writeLocation l v s = .next t) : writeLocation l v { s with fault := b } = .next { t with fault := b } := by
  cases l with
  | reg r =>
    have hr : r ≠ .cmd := fun hcmd => hl (congrArg Location.reg hcmd)
    rw [writeLocation_reg hr] at h ⊢
    cases h
    rw [writeReg_setFault]
  | ibuf a =>
    cases h
    rfl

/-- R205: off CMD's offset a write is served alike whatever FAULT is. -/
theorem hostStep_write_setFault {off : BitVec 8} {n : Nat} {v : Word} {s t : State} (hoff : off ≠ Reg.cmd.offset)
    (b : Bool) (h : hostStep (.write off n v) s = .next t) :
    hostStep (.write off n v) { s with fault := b } = .next { t with fault := b } := by
  obtain ⟨l, hl, hwrite⟩ := hostStep_write_cases h
  have hne : l ≠ .reg .cmd := fun hcmd => hoff (locate_eq_reg (hcmd ▸ hl)).2
  exact (hostStep_write (s := { s with fault := b }) v hl).trans (writeLocation_setFault hne b hwrite)

/-- R205: off STATUS's offset a read is served alike whatever FAULT is. -/
theorem hostStep_read_setFault {off : BitVec 8} {n : Nat} {s t : State} (hoff : off ≠ Reg.status.offset) (b : Bool)
    (h : hostStep (.read off n) s = .next t) :
    hostStep (.read off n) { s with fault := b } = .next { t with fault := b } := by
  obtain ⟨l, hl, rfl⟩ := hostStep_read_cases h
  have hne : l ≠ .reg .status := fun hstatus => hoff (locate_eq_reg (hstatus ▸ hl)).2
  rw [hostStep_read (s := { s with fault := b }) hl, locationWord_setFault hne, ← readEffect_setFault]

/-- Settles O6: a write to CMD is refused with FAULTED, and no other access but a read of STATUS depends on FAULT. -/
theorem faultedUnitRefusesCommands : Obligations.FaultedUnitRefusesCommands := by
  refine ⟨fun s w rest hs hq => ?_, fun s t off n v hoff h => ?_, fun s t off n hoff h => ?_⟩
  · rw [step_write_cmd hq, runWord_faulted (s := { s with hostQueue := rest }) w hs, raise_eq_of_ne_dpRange (by decide)]
    rfl
  · exact hostStep_write_setFault (s := { s with fault := false }) hoff true h
  · exact hostStep_read_setFault (s := { s with fault := false }) hoff true h

end Sys2Proof.Machine

/-! ### Reset -/

namespace Sys2Proof.Machine

/-- R230: a reset ends in its step, whatever the unit's state. -/
theorem step_reset {s : State} {rest : List HostOp} (hq : s.hostQueue = .reset :: rest) :
    step s = .next (platformReset { s with hostQueue := rest }) := step_cons hq

/-- R38, R231: reset lists no byte of IBUF, and an unlisted one reads 0. -/
@[simp] theorem ibufByte_platformReset (s : State) (i : Nat) : ibufByte (platformReset s) i = 0 := by
  rw [ibufByte, platformReset_ibuf, Memory.read_nil]

theorem outLenWord_nil {s : State} (h : s.out = []) : outLenWord s = 0 := by
  have hlen : s.out.length = 0 := by rw [h, List.length_nil]
  exact BitVec.eq_of_toNat_eq ((toNat_outLenWord (by omega)).trans hlen)

/-- Settles O7: the step is `platformReset`, whose fields are the rows of R231's table, and what a host reads of an empty
OUT follows from R31. -/
theorem resetLeavesResetValues : Obligations.ResetLeavesResetValues := by
  intro s rest hq
  have hout : (platformReset { s with hostQueue := rest }).out = [] := platformReset_out _
  have houtLen : regWord .outLen (platformReset { s with hostQueue := rest }) = 0 := outLenWord_nil hout
  have houtData : regWord .outData (platformReset { s with hostQueue := rest }) = 0x100 := outDataWord_nil hout
  exact ⟨_, step_reset hq,
    platformReset_cmd _, platformReset_accept _, platformReset_err _, platformReset_fault _,
    platformReset_argValue _, platformReset_argCount _,
    platformReset_argPrefix _, platformReset_argNeg _, platformReset_argDp _,
    ibufByte_platformReset _, platformReset_ibufLen _,
    platformReset_resValue _, platformReset_resLen _,
    platformReset_resPrefix _, platformReset_resNeg _, platformReset_resDp _,
    hout, houtLen, houtData⟩

end Sys2Proof.Machine

/-! ### The model's choices: an idle unit, and IBUF's form -/

namespace Sys2Proof.Machine

theorem step_nil {s : State} (hq : s.hostQueue = []) : step s = .next s := by
  rw [step, stepHost, hq]

/-- Settles O16: a step serves the head of the queue of accesses, and an empty queue has none. -/
theorem idleUnitWaits : Obligations.IdleUnitWaits := fun _ => step_nil

theorem Memory.wfFrom_cons_iff (hi lo k : Nat) (b : Byte) (m : Memory) :
    Memory.wfFrom hi lo ((k, b) :: m) = true ↔ lo ≤ k ∧ k < hi ∧ b ≠ 0 ∧ Memory.wfFrom hi (k + 1) m = true := by
  simp [Memory.wfFrom, Memory.unlisted, and_assoc]

theorem Memory.read_eq_zero_of_lt {hi lo a : Nat} {m : Memory} (hm : Memory.wfFrom hi lo m = true) (ha : a < lo) :
    Memory.read m a = 0 := by
  induction m generalizing lo with
  | nil => rfl
  | cons c m ih =>
    obtain ⟨k, b⟩ := c
    obtain ⟨hlo, -, -, htail⟩ := (Memory.wfFrom_cons_iff ..).1 hm
    rw [Memory.read_cons, if_neg (by omega), ih htail (by omega)]

theorem Memory.wfFrom_head {hi lo k : Nat} {b : Byte} {m : Memory} (hm : Memory.wfFrom hi lo ((k, b) :: m) = true) :
    Memory.wfFrom hi k ((k, b) :: m) = true := by
  obtain ⟨-, hrest⟩ := (Memory.wfFrom_cons_iff ..).1 hm
  exact (Memory.wfFrom_cons_iff ..).2 ⟨le_rfl, hrest⟩

/-- The first entry of a canonical memory reads nonzero, so another one that reads alike there starts no later. -/
theorem Memory.head_le_of_read_eq {hi lo k k' : Nat} {b b' : Byte} {m m' : Memory}
    (hm : Memory.wfFrom hi lo ((k, b) :: m) = true) (hm' : Memory.wfFrom hi lo ((k', b') :: m') = true)
    (hread : Memory.read ((k, b) :: m) k = Memory.read ((k', b') :: m') k) : k' ≤ k := by
  obtain ⟨-, -, hb, -⟩ := (Memory.wfFrom_cons_iff ..).1 hm
  by_contra hlt
  rw [Memory.read_cons, if_pos rfl, Memory.read_eq_zero_of_lt (Memory.wfFrom_head hm') (by omega)] at hread
  exact hb hread

/-- A canonical memory that reads 0 everywhere lists nothing. -/
theorem Memory.eq_nil_of_read_eq_zero {hi lo : Nat} {m : Memory} (hm : Memory.wfFrom hi lo m = true)
    (hread : ∀ a, Memory.read m a = 0) : m = [] := by
  cases m with
  | nil => rfl
  | cons c m =>
    obtain ⟨k, b⟩ := c
    obtain ⟨-, -, hb, -⟩ := (Memory.wfFrom_cons_iff ..).1 hm
    exact absurd (by simpa using hread k) hb

/-- Equal entries at the head leave tails that read alike: at the head's offset both tails read 0. -/
theorem Memory.read_tail_eq {hi k : Nat} {b : Byte} {m m' : Memory}
    (hm : Memory.wfFrom hi (k + 1) m = true) (hm' : Memory.wfFrom hi (k + 1) m' = true)
    (hread : ∀ a, Memory.read ((k, b) :: m) a = Memory.read ((k, b) :: m') a) (a : Nat) :
    Memory.read m a = Memory.read m' a := by
  by_cases ha : k = a
  · rw [Memory.read_eq_zero_of_lt hm (by omega), Memory.read_eq_zero_of_lt hm' (by omega)]
  · simpa [ha] using hread a

/-- Two canonical memories that read alike have the same head, and so the same entries. -/
theorem Memory.eq_of_read_eq {hi lo : Nat} {m m' : Memory} (hm : Memory.wfFrom hi lo m = true)
    (hm' : Memory.wfFrom hi lo m' = true) (hread : ∀ a, Memory.read m a = Memory.read m' a) : m = m' := by
  induction m generalizing lo m' with
  | nil => exact (Memory.eq_nil_of_read_eq_zero hm' fun a => (hread a).symm).symm
  | cons c m ih =>
    obtain ⟨k, b⟩ := c
    cases m' with
    | nil => exact Memory.eq_nil_of_read_eq_zero hm hread
    | cons c' m' =>
      obtain ⟨k', b'⟩ := c'
      obtain ⟨-, -, -, htail⟩ := (Memory.wfFrom_cons_iff ..).1 hm
      obtain ⟨-, -, -, htail'⟩ := (Memory.wfFrom_cons_iff ..).1 hm'
      have hoff : k = k' := Nat.le_antisymm
        (Memory.head_le_of_read_eq hm' hm (hread k').symm) (Memory.head_le_of_read_eq hm hm' (hread k))
      subst hoff
      have hbyte : b = b' := by simpa using hread k
      subst hbyte
      rw [ih htail htail' (Memory.read_tail_eq htail htail' hread)]

/-- Settles O24: IBUF's canonical form lists its nonzero bytes by rising offset, so its bytes fix it. -/
theorem canonicalMemoriesAreEqual : Obligations.CanonicalMemoriesAreEqual :=
  fun _ _ _ => Memory.eq_of_read_eq

end Sys2Proof.Machine
